-- ==== Sys2Proof/Word.lean ====
section
/-! DEFINITION. The word types of the core and the register index (rules R12, R14, R21). -/

namespace Sys2Proof

/-- An 8-bit unsigned value: a general register, a timer, a memory location (R21, R34, R55). -/
abbrev Byte := BitVec 8

/-- A 16-bit unsigned value: the instruction word, PC, I, a stack entry (R10, R76). -/
abbrev Word := BitVec 16

/-- A 4-bit field of an instruction word (R78). -/
abbrev Nibble := BitVec 4

/-- The 12-bit address field nnn (R78). -/
abbrev Addr12 := BitVec 12

/-- A general register index. "Every 4-bit field value names exactly one register" (R21). -/
abbrev Reg := Fin 16

end Sys2Proof
end

