-- ==== Sys2Proof/Config.lean ====
section
/-! DEFINITION. The implementation parameters of rule R10, and the free byte of `rand()` (R122).
The five OPEN parameters are the fields of one plain record, `Config`; the state carries it (log 1). -/

namespace Sys2Proof

/-- MEM_SIZE (R10, R55). -/
abbrev memSize : Nat := 4096

/-- DISPLAY_W (R10, R37). -/
abbrev displayW : Nat := 64

/-- DISPLAY_H (R10, R37). -/
abbrev displayH : Nat := 32

/-- GLYPH_BASE (R10, R65). -/
abbrev glyphBase : Nat := 0x50

/-- GLYPH_BYTES: five bytes per glyph (R10, R67). -/
abbrev glyphBytes : Nat := 5

/-- PC_RESET (R10, R69). -/
abbrev pcReset : Word := 0x200#16

/-- STACK_DEPTH (R10, R30): the source's unbounded design, or a bound N (R30 asks N ≥ 1: `Config.wf`). -/
inductive StackDepth where
  | unbounded
  | bounded (n : Nat)
deriving DecidableEq, Repr

/-- KEY_INDEX_POLICY (R10, R134). -/
inductive KeyIndexPolicy where
  | fault
  | mask
  | notPressed
deriving DecidableEq, Repr

/-- ALU_VF_ALIAS (R10, R108). -/
inductive AluVfAlias where
  | latched
  | sequential
deriving DecidableEq, Repr

/-- DECODE_5_9 (R10, R83). -/
inductive Decode59 where
  | strict
  | ignoreN
deriving DecidableEq, Repr

/-- GLYPH_TABLE (R10, R66): 16 glyphs of 5 bytes. -/
abbrev GlyphTable := Vector Byte 80

/-- The OPEN parameters of rule R10, "a configuration field of the model" each (R11). -/
structure Config where
  stackDepth : StackDepth
  keyIndexPolicy : KeyIndexPolicy
  aluVfAlias : AluVfAlias
  decode59 : Decode59
  glyphTable : GlyphTable
deriving DecidableEq, Repr

/-- The default glyph bytes of rule R66, which the spec supplies from general knowledge
(PRESUMED, log 5; unsafe for a claim about glyph shapes). One row of five bytes per glyph 0..F. -/
def GlyphTable.usualFont : GlyphTable :=
  #v[0xF0, 0x90, 0x90, 0x90, 0xF0,
     0x20, 0x60, 0x20, 0x20, 0x70,
     0xF0, 0x10, 0xF0, 0x80, 0xF0,
     0xF0, 0x10, 0xF0, 0x10, 0xF0,
     0x90, 0x90, 0xF0, 0x10, 0x10,
     0xF0, 0x80, 0xF0, 0x10, 0xF0,
     0xF0, 0x80, 0xF0, 0x90, 0xF0,
     0xF0, 0x10, 0x20, 0x40, 0x40,
     0xF0, 0x90, 0xF0, 0x90, 0xF0,
     0xF0, 0x90, 0xF0, 0x10, 0xF0,
     0xF0, 0x90, 0xF0, 0x90, 0x90,
     0xE0, 0x90, 0xE0, 0x90, 0xE0,
     0xF0, 0x80, 0x80, 0x80, 0xF0,
     0xE0, 0x90, 0x90, 0x90, 0xE0,
     0xF0, 0x80, 0xF0, 0x80, 0xF0,
     0xF0, 0x80, 0xF0, 0x80, 0x80]

/-- The default parameter values of rule R10. -/
def Config.default : Config where
  stackDepth := .unbounded
  keyIndexPolicy := .fault
  aluVfAlias := .latched
  decode59 := .strict
  glyphTable := .usualFont

/-- A stack bound is a natural number N ≥ 1 (R10, R30); every other parameter value is legal. -/
abbrev Config.wf (c : Config) : Prop := c.stackDepth ≠ .bounded 0

/-- The free byte of the k-th draw of `rand()` that the host has not named (R122: "free of any law").
It has no body: no proof and no evaluation knows any of its values (DESIGN CHOICE, log 7; safe). -/
opaque Config.randByte : Nat → Byte

end Sys2Proof
end

