-- ==== Sys2Proof/Syntax.lean ====
section
/-! DEFINITION. The instruction set as syntax: one constructor per row of spec/opcode_table.json
(34 rows, R2, R84). The operand fields are those of the row's format (R81). -/

namespace Sys2Proof

/-- The 34 instructions, in the order of spec/opcode_table.json. A field the encoding holds and the
instruction does not read is kept, so that no bit of a word is lost: y of shiftRight and shiftLeft (R81),
and the low nibble n of skipEqReg and skipNeReg, which is 0 in the table's form and free under
DECODE_5_9 = ignore_n (R83, log 4). -/
inductive Instr where
  /-- 00E0 `clear` (R96) -/
  | clear
  /-- 00EE `return` (R99) -/
  | ret
  /-- 1nnn `jump nnn` (R100) -/
  | jump (nnn : Addr12)
  /-- 2nnn `call nnn` (R101) -/
  | call (nnn : Addr12)
  /-- 3xnn `skip-eq-imm Vx, nn` (R102) -/
  | skipEqImm (x : Reg) (nn : Byte)
  /-- 4xnn `skip-ne-imm Vx, nn` (R103) -/
  | skipNeImm (x : Reg) (nn : Byte)
  /-- 5xy0 `skip-eq-reg Vx, Vy` (R104) -/
  | skipEqReg (x y : Reg) (n : Nibble)
  /-- 6xnn `load-imm Vx, nn` (R110) -/
  | loadImm (x : Reg) (nn : Byte)
  /-- 7xnn `add-imm Vx, nn` (R111) -/
  | addImm (x : Reg) (nn : Byte)
  /-- 8xy0 `copy Vx, Vy` (R112) -/
  | copy (x y : Reg)
  /-- 8xy1 `or Vx, Vy` (R113) -/
  | orReg (x y : Reg)
  /-- 8xy2 `and Vx, Vy` (R114) -/
  | andReg (x y : Reg)
  /-- 8xy3 `xor Vx, Vy` (R115) -/
  | xorReg (x y : Reg)
  /-- 8xy4 `add-reg Vx, Vy` (R116) -/
  | addReg (x y : Reg)
  /-- 8xy5 `sub Vx, Vy` (R117) -/
  | sub (x y : Reg)
  /-- 8xy6 `shift-right Vx` (R118) -/
  | shiftRight (x y : Reg)
  /-- 8xy7 `subn Vx, Vy` (R119) -/
  | subn (x y : Reg)
  /-- 8xyE `shift-left Vx` (R120) -/
  | shiftLeft (x y : Reg)
  /-- 9xy0 `skip-ne-reg Vx, Vy` (R105) -/
  | skipNeReg (x y : Reg) (n : Nibble)
  /-- Annn `load-index nnn` (R124) -/
  | loadIndex (nnn : Addr12)
  /-- Bnnn `jump-offset nnn` (R106) -/
  | jumpOffset (nnn : Addr12)
  /-- Cxnn `random-and Vx, nn` (R121) -/
  | randomAnd (x : Reg) (nn : Byte)
  /-- Dxyn `draw Vx, Vy, n` (R97) -/
  | draw (x y : Reg) (n : Nibble)
  /-- Ex9E `skip-key-pressed Vx` (R135) -/
  | skipKeyPressed (x : Reg)
  /-- ExA1 `skip-key-released Vx` (R136) -/
  | skipKeyReleased (x : Reg)
  /-- Fx07 `read-delay Vx` (R131) -/
  | readDelay (x : Reg)
  /-- Fx0A `await-key Vx` (R137) -/
  | awaitKey (x : Reg)
  /-- Fx15 `write-delay Vx` (R132) -/
  | writeDelay (x : Reg)
  /-- Fx18 `write-sound Vx` (R133) -/
  | writeSound (x : Reg)
  /-- Fx1E `add-index Vx` (R125) -/
  | addIndex (x : Reg)
  /-- Fx29 `font-address Vx` (R126) -/
  | fontAddress (x : Reg)
  /-- Fx33 `bcd-store Vx` (R127) -/
  | bcdStore (x : Reg)
  /-- Fx55 `store-block Vx` (R128) -/
  | storeBlock (x : Reg)
  /-- Fx65 `load-block Vx` (R129) -/
  | loadBlock (x : Reg)
deriving DecidableEq, Repr

end Sys2Proof
end

