-- ==== Sys2Proof/WellFormed.lean ====
section
/-! DEFINITION. When a term of `Instr` is an instruction of the machine. The operand types already bound
every field (R21, R78); the one condition left is the low nibble of 5xyn and 9xyn (R83). -/

namespace Sys2Proof

/-- 5xyn and 9xyn name a skip only for n = 0 under DECODE_5_9 = strict, for every n under ignore_n (R83). -/
def lowNibbleAdmitted (d : Decode59) (n : Nibble) : Bool :=
  match d with
  | .strict => n == 0#4
  | .ignoreN => true

/-- The instruction exists under the given setting of DECODE_5_9. -/
def Instr.wellFormed (d : Decode59) : Instr → Bool
  | .skipEqReg _ _ n => lowNibbleAdmitted d n
  | .skipNeReg _ _ n => lowNibbleAdmitted d n
  | .clear | .ret | .jump _ | .call _ | .skipEqImm _ _ | .skipNeImm _ _ | .loadImm _ _ | .addImm _ _
  | .copy _ _ | .orReg _ _ | .andReg _ _ | .xorReg _ _ | .addReg _ _ | .sub _ _ | .shiftRight _ _
  | .subn _ _ | .shiftLeft _ _ | .loadIndex _ | .jumpOffset _ | .randomAnd _ _ | .draw _ _ _
  | .skipKeyPressed _ | .skipKeyReleased _ | .readDelay _ | .awaitKey _ | .writeDelay _ | .writeSound _
  | .addIndex _ | .fontAddress _ | .bcdStore _ | .storeBlock _ | .loadBlock _ => true

end Sys2Proof
end

