-- ==== Sys2Proof/Decode.lean ====
section
/-! DEFINITION. Decoding (R76 to R87) and the encoder written from the same opcode map (R84). The decoder is
total on every word and on every byte list; a word that names no instruction is rejected by the group
that left it unmatched (R84), which the cycle driver executes as a no-op (R85). -/

namespace Sys2Proof

/-! ## Fields (R78) -/

/-- g = w[15:12], the group selector. -/
def fieldG (w : Word) : Nibble := w.extractLsb' 12 4

/-- x = w[11:8]. -/
def fieldX (w : Word) : Nibble := w.extractLsb' 8 4

/-- y = w[7:4]. -/
def fieldY (w : Word) : Nibble := w.extractLsb' 4 4

/-- n = w[3:0]. -/
def fieldN (w : Word) : Nibble := w.extractLsb' 0 4

/-- nn = w[7:0]. -/
def fieldNN (w : Word) : Byte := w.extractLsb' 0 8

/-- nnn = w[11:0]. -/
def fieldNNN (w : Word) : Addr12 := w.extractLsb' 0 12

/-- The register a 4-bit field names (R21, R80). -/
def regOf (b : Nibble) : Reg := ⟨b.toNat, b.isLt⟩

/-- The 4-bit field that names a register (R21). -/
def regBits (r : Reg) : Nibble := BitVec.ofNat 4 r.val

/-- The instruction word of two bytes, the byte at the lower address first: big-endian (R60, R77). -/
def wordOfBytes (hi lo : Byte) : Word := hi ++ lo

/-- w[15:8], the byte at the lower address (R60). -/
def highByte (w : Word) : Byte := w.extractLsb' 8 8

/-- w[7:0], the byte at the higher address (R60). -/
def lowByte (w : Word) : Byte := w.extractLsb' 0 8

/-! ## Dispatch (R82, R83, R84) -/

/-- Why the decoder gives no instruction. The first six name the group whose sub-selection the word
misses (the unmatched rows of R84); `truncated` is a byte list that holds less than one word (R76). -/
inductive DecodeReject where
  | group0 (w : Word)
  | group5 (w : Word)
  | group8 (w : Word)
  | group9 (w : Word)
  | groupE (w : Word)
  | groupF (w : Word)
  | truncated
deriving DecidableEq, Repr

/-- Group 8, selected by n (R82). -/
def decodeGroup8 (w : Word) : Except DecodeReject Instr :=
  match (fieldN w).toNat with
  | 0x0 => .ok (.copy (regOf (fieldX w)) (regOf (fieldY w)))
  | 0x1 => .ok (.orReg (regOf (fieldX w)) (regOf (fieldY w)))
  | 0x2 => .ok (.andReg (regOf (fieldX w)) (regOf (fieldY w)))
  | 0x3 => .ok (.xorReg (regOf (fieldX w)) (regOf (fieldY w)))
  | 0x4 => .ok (.addReg (regOf (fieldX w)) (regOf (fieldY w)))
  | 0x5 => .ok (.sub (regOf (fieldX w)) (regOf (fieldY w)))
  | 0x6 => .ok (.shiftRight (regOf (fieldX w)) (regOf (fieldY w)))
  | 0x7 => .ok (.subn (regOf (fieldX w)) (regOf (fieldY w)))
  | 0xE => .ok (.shiftLeft (regOf (fieldX w)) (regOf (fieldY w)))
  | _ => .error (.group8 w)

/-- Group 0xE, selected by nn (R82). -/
def decodeGroupE (w : Word) : Except DecodeReject Instr :=
  match (fieldNN w).toNat with
  | 0x9E => .ok (.skipKeyPressed (regOf (fieldX w)))
  | 0xA1 => .ok (.skipKeyReleased (regOf (fieldX w)))
  | _ => .error (.groupE w)

/-- Group 0xF, selected by nn (R82). -/
def decodeGroupF (w : Word) : Except DecodeReject Instr :=
  match (fieldNN w).toNat with
  | 0x07 => .ok (.readDelay (regOf (fieldX w)))
  | 0x0A => .ok (.awaitKey (regOf (fieldX w)))
  | 0x15 => .ok (.writeDelay (regOf (fieldX w)))
  | 0x18 => .ok (.writeSound (regOf (fieldX w)))
  | 0x1E => .ok (.addIndex (regOf (fieldX w)))
  | 0x29 => .ok (.fontAddress (regOf (fieldX w)))
  | 0x33 => .ok (.bcdStore (regOf (fieldX w)))
  | 0x55 => .ok (.storeBlock (regOf (fieldX w)))
  | 0x65 => .ok (.loadBlock (regOf (fieldX w)))
  | _ => .error (.groupF w)

/-- Selection by the group selector (R82, R83, R84). -/
def decodeByGroup (d : Decode59) (w : Word) : Except DecodeReject Instr :=
  match (fieldG w).toNat with
  | 0x0 => .error (.group0 w)
  | 0x1 => .ok (.jump (fieldNNN w))
  | 0x2 => .ok (.call (fieldNNN w))
  | 0x3 => .ok (.skipEqImm (regOf (fieldX w)) (fieldNN w))
  | 0x4 => .ok (.skipNeImm (regOf (fieldX w)) (fieldNN w))
  | 0x5 =>
    if lowNibbleAdmitted d (fieldN w) then .ok (.skipEqReg (regOf (fieldX w)) (regOf (fieldY w)) (fieldN w))
    else .error (.group5 w)
  | 0x6 => .ok (.loadImm (regOf (fieldX w)) (fieldNN w))
  | 0x7 => .ok (.addImm (regOf (fieldX w)) (fieldNN w))
  | 0x8 => decodeGroup8 w
  | 0x9 =>
    if lowNibbleAdmitted d (fieldN w) then .ok (.skipNeReg (regOf (fieldX w)) (regOf (fieldY w)) (fieldN w))
    else .error (.group9 w)
  | 0xA => .ok (.loadIndex (fieldNNN w))
  | 0xB => .ok (.jumpOffset (fieldNNN w))
  | 0xC => .ok (.randomAnd (regOf (fieldX w)) (fieldNN w))
  | 0xD => .ok (.draw (regOf (fieldX w)) (regOf (fieldY w)) (fieldN w))
  | 0xE => decodeGroupE w
  | _ => decodeGroupF w

/-- The instruction a word names: exact full-word match first, then the group selector (R82). -/
def decode (d : Decode59) (w : Word) : Except DecodeReject Instr :=
  if w = 0x00E0#16 then .ok .clear
  else if w = 0x00EE#16 then .ok .ret
  else decodeByGroup d w

/-- Decoding a byte stream: the first two bytes form the word, the rest is left over (R76, R77). -/
def decodeBytes (d : Decode59) : List Byte → Except DecodeReject (Instr × List Byte)
  | hi :: lo :: rest =>
    match decode d (wordOfBytes hi lo) with
    | .ok i => .ok (i, rest)
    | .error e => .error e
  | [_] => .error .truncated
  | [] => .error .truncated

/-! ## Encoding (R81, R84) -/

/-- Format NNN. -/
def formatNNN (g : Nibble) (nnn : Addr12) : Word := g ++ nnn

/-- Format XNN. -/
def formatXNN (g : Nibble) (x : Reg) (nn : Byte) : Word := g ++ (regBits x ++ nn)

/-- Formats XY and XYN. -/
def formatXYN (g : Nibble) (x y : Reg) (n : Nibble) : Word := g ++ (regBits x ++ (regBits y ++ n))

/-- The word of an instruction (the encoding column of R94). -/
def encode : Instr → Word
  | .clear => 0x00E0#16
  | .ret => 0x00EE#16
  | .jump nnn => formatNNN 0x1#4 nnn
  | .call nnn => formatNNN 0x2#4 nnn
  | .skipEqImm x nn => formatXNN 0x3#4 x nn
  | .skipNeImm x nn => formatXNN 0x4#4 x nn
  | .skipEqReg x y n => formatXYN 0x5#4 x y n
  | .loadImm x nn => formatXNN 0x6#4 x nn
  | .addImm x nn => formatXNN 0x7#4 x nn
  | .copy x y => formatXYN 0x8#4 x y 0x0#4
  | .orReg x y => formatXYN 0x8#4 x y 0x1#4
  | .andReg x y => formatXYN 0x8#4 x y 0x2#4
  | .xorReg x y => formatXYN 0x8#4 x y 0x3#4
  | .addReg x y => formatXYN 0x8#4 x y 0x4#4
  | .sub x y => formatXYN 0x8#4 x y 0x5#4
  | .shiftRight x y => formatXYN 0x8#4 x y 0x6#4
  | .subn x y => formatXYN 0x8#4 x y 0x7#4
  | .shiftLeft x y => formatXYN 0x8#4 x y 0xE#4
  | .skipNeReg x y n => formatXYN 0x9#4 x y n
  | .loadIndex nnn => formatNNN 0xA#4 nnn
  | .jumpOffset nnn => formatNNN 0xB#4 nnn
  | .randomAnd x nn => formatXNN 0xC#4 x nn
  | .draw x y n => formatXYN 0xD#4 x y n
  | .skipKeyPressed x => formatXNN 0xE#4 x 0x9E#8
  | .skipKeyReleased x => formatXNN 0xE#4 x 0xA1#8
  | .readDelay x => formatXNN 0xF#4 x 0x07#8
  | .awaitKey x => formatXNN 0xF#4 x 0x0A#8
  | .writeDelay x => formatXNN 0xF#4 x 0x15#8
  | .writeSound x => formatXNN 0xF#4 x 0x18#8
  | .addIndex x => formatXNN 0xF#4 x 0x1E#8
  | .fontAddress x => formatXNN 0xF#4 x 0x29#8
  | .bcdStore x => formatXNN 0xF#4 x 0x33#8
  | .storeBlock x => formatXNN 0xF#4 x 0x55#8
  | .loadBlock x => formatXNN 0xF#4 x 0x65#8

/-! ## The opcode table's own mask and match (spec/opcode_table.json, under DECODE_5_9 = strict) -/

/-- One row: a word belongs to it when its masked bits equal `value`. -/
structure OpcodeRow where
  mnemonic : String
  mask : Word
  value : Word
deriving DecidableEq, Repr

/-- The word has the row's fixed bits. -/
def OpcodeRow.matchesWord (r : OpcodeRow) (w : Word) : Bool := w &&& r.mask == r.value

/-- The row an instruction stands for. -/
def Instr.row : Instr → OpcodeRow
  | .clear => ⟨"clear", 0xFFFF, 0x00E0⟩
  | .ret => ⟨"return", 0xFFFF, 0x00EE⟩
  | .jump _ => ⟨"jump", 0xF000, 0x1000⟩
  | .call _ => ⟨"call", 0xF000, 0x2000⟩
  | .skipEqImm _ _ => ⟨"skip-eq-imm", 0xF000, 0x3000⟩
  | .skipNeImm _ _ => ⟨"skip-ne-imm", 0xF000, 0x4000⟩
  | .skipEqReg _ _ _ => ⟨"skip-eq-reg", 0xF00F, 0x5000⟩
  | .loadImm _ _ => ⟨"load-imm", 0xF000, 0x6000⟩
  | .addImm _ _ => ⟨"add-imm", 0xF000, 0x7000⟩
  | .copy _ _ => ⟨"copy", 0xF00F, 0x8000⟩
  | .orReg _ _ => ⟨"or", 0xF00F, 0x8001⟩
  | .andReg _ _ => ⟨"and", 0xF00F, 0x8002⟩
  | .xorReg _ _ => ⟨"xor", 0xF00F, 0x8003⟩
  | .addReg _ _ => ⟨"add-reg", 0xF00F, 0x8004⟩
  | .sub _ _ => ⟨"sub", 0xF00F, 0x8005⟩
  | .shiftRight _ _ => ⟨"shift-right", 0xF00F, 0x8006⟩
  | .subn _ _ => ⟨"subn", 0xF00F, 0x8007⟩
  | .shiftLeft _ _ => ⟨"shift-left", 0xF00F, 0x800E⟩
  | .skipNeReg _ _ _ => ⟨"skip-ne-reg", 0xF00F, 0x9000⟩
  | .loadIndex _ => ⟨"load-index", 0xF000, 0xA000⟩
  | .jumpOffset _ => ⟨"jump-offset", 0xF000, 0xB000⟩
  | .randomAnd _ _ => ⟨"random-and", 0xF000, 0xC000⟩
  | .draw _ _ _ => ⟨"draw", 0xF000, 0xD000⟩
  | .skipKeyPressed _ => ⟨"skip-key-pressed", 0xF0FF, 0xE09E⟩
  | .skipKeyReleased _ => ⟨"skip-key-released", 0xF0FF, 0xE0A1⟩
  | .readDelay _ => ⟨"read-delay", 0xF0FF, 0xF007⟩
  | .awaitKey _ => ⟨"await-key", 0xF0FF, 0xF00A⟩
  | .writeDelay _ => ⟨"write-delay", 0xF0FF, 0xF015⟩
  | .writeSound _ => ⟨"write-sound", 0xF0FF, 0xF018⟩
  | .addIndex _ => ⟨"add-index", 0xF0FF, 0xF01E⟩
  | .fontAddress _ => ⟨"font-address", 0xF0FF, 0xF029⟩
  | .bcdStore _ => ⟨"bcd-store", 0xF0FF, 0xF033⟩
  | .storeBlock _ => ⟨"store-block", 0xF0FF, 0xF055⟩
  | .loadBlock _ => ⟨"load-block", 0xF0FF, 0xF065⟩

/-! ## The opcode table's word, as the host lays it out -/

/-- The instruction word of a table row's bits: every instruction is one 16-bit word, so the table's bit k is
the word's bit k, and a bit at or above `nbits` is 0 (R13, R76). -/
def tableWord (nbits w : Nat) : Word := BitVec.ofNat 16 (w % 2 ^ nbits)

/-- The instruction the decoder reads from a table word laid out in memory order, under the default
DECODE_5_9 = strict (R60, R83). -/
def decodeTableWord (nbits w : Nat) : Option Instr :=
  match decodeBytes .strict [highByte (tableWord nbits w), lowByte (tableWord nbits w)] with
  | .ok (i, _) => some i
  | .error _ => none

end Sys2Proof
end

