-- ==== Sys2Proof/Machine/State.lean ====
section
/-! DEFINITION. The state of one machine (R20), why a step stops, and the state after `construct()` (R44, R46). -/

namespace Sys2Proof.Machine

/-- Memory as the list of the locations that differ from what an unlisted location reads as; its canonical
form is `Memory.wf` in Machine/Ops.lean (log 11). -/
abbrev Memory := List Host.Cell

/-- The frame buffer FB[col][row]: 64 columns of 32 cells, true = lit (R37). -/
abbrev FrameBuffer := Vector (Vector Bool 32) 64

/-- The fault causes of rule R138. -/
inductive FaultCause where
  /-- 00EE with an empty call stack (R139). -/
  | stackUnderflow
  /-- 2nnn with STACK_DEPTH entries already on the stack (R140). -/
  | stackOverflow
  /-- Ex9E or ExA1 with Vx ≥ 16 under KEY_INDEX_POLICY = fault (R141). -/
  | keyIndexRange
deriving DecidableEq, Repr

/-- A fault record: cause, the address A of the faulting instruction, and its word (R40). -/
structure FaultRecord where
  cause : FaultCause
  pc : Word
  word : Word
deriving DecidableEq, Repr

/-- The core status (R39). -/
inductive Status where
  | running
  | faulted (r : FaultRecord)
deriving DecidableEq, Repr

/-- Why a step does not answer a next state. -/
inductive Fault where
  /-- Raised by the cycle driver alone: `cycle()` on a core whose status is already Faulted changes nothing
  and returns Halted r (R91). The run is stuck here, as the spec says (93_implementation_defined.md item 14).
  Safe: no instruction is executed after it. -/
  | halted (r : FaultRecord)
deriving DecidableEq, Repr

/-- Why an instruction has no meaning. -/
inductive Refusal where
  /-- The arm of an instruction without a meaning yet. No arm of this model raises it. Safe. -/
  | notModelled (mnemonic : String)
deriving DecidableEq, Repr

/-- The complete state (R20), and the model's own three fields at the end. -/
structure State where
  /-- memory (R55) -/
  mem : Memory
  /-- general registers V0..VF (R21) -/
  v : Vector Byte 16
  /-- index register I (R28) -/
  i : Word
  /-- program counter (R24) -/
  pc : Word
  /-- call stack, head = top (R30) -/
  stack : List Word
  /-- delay timer DT (R34) -/
  dt : Byte
  /-- sound timer ST (R35) -/
  st : Byte
  /-- frame buffer (R37) -/
  fb : FrameBuffer
  /-- key panel, true = pressed (R38) -/
  key : Vector Bool 16
  /-- Running or Faulted (R39) -/
  status : Status
  /-- the implementation parameters, fixed for the machine (R11, log 1) -/
  cfg : Config
  /-- the bytes the host has named as the next draws of `rand()` (R122, log 7) -/
  provider : List Byte
  /-- how many free bytes have been drawn (R122, log 7) -/
  drawn : Nat
deriving DecidableEq, Repr

/-- `construct()`: the reset state of rule R44 for given parameters. Memory lists nothing: an unlisted location
reads as its construction value (`resetByte` in Machine/Ops.lean). -/
def State.construct (cfg : Config) : State where
  mem := []
  v := Vector.replicate 16 0#8
  i := 0#16
  pc := pcReset
  stack := []
  dt := 0#8
  st := 0#8
  fb := Vector.replicate 64 (Vector.replicate 32 false)
  key := Vector.replicate 16 false
  status := .running
  cfg := cfg
  provider := []
  drawn := 0

/-- The machine right after reset, with the default parameters of rule R10. -/
def State.reset : State := State.construct Config.default

end Sys2Proof.Machine
end

