-- ==== Sys2Proof/Machine/Ops.lean ====
section
/-! DEFINITION. The named operations over registers, memory, the stack, the timers, the frame buffer and the
status (R15, R26, R31, R32, R36, R57 to R59, R77, R89, R144, R145). -/

namespace Sys2Proof.Machine

/-! ## Memory (R55 to R59) -/

/-- What a location reads as when nothing has been written to it: the construction contents (R44, R65), the
glyph table at 0x050..0x09F and zero elsewhere. -/
def resetByte (g : GlyphTable) (a : Nat) : Byte :=
  if h : glyphBase ≤ a ∧ a < glyphBase + 80 then g[a - glyphBase] else 0#8

/-- The listed byte of a location, if it is listed. -/
def Memory.lookup (a : Nat) : Memory → Option Byte
  | [] => none
  | (k, b) :: rest => if k = a then some b else Memory.lookup a rest

/-- The byte of a location: listed, or the construction value. -/
def Memory.read (g : GlyphTable) (m : Memory) (a : Nat) : Byte :=
  (Memory.lookup a m).getD (resetByte g a)

/-- List a byte at its place in address order. -/
def Memory.insert (a : Nat) (b : Byte) : Memory → Memory
  | [] => [(a, b)]
  | (k, c) :: rest =>
    if a < k then (a, b) :: (k, c) :: rest
    else if a = k then (a, b) :: rest
    else (k, c) :: Memory.insert a b rest

/-- Unlist a location. -/
def Memory.erase (a : Nat) (m : Memory) : Memory := m.filter (fun c => c.1 ≠ a)

/-- Set the byte of a location, keeping the canonical form: the construction value is never listed. -/
def Memory.write (g : GlyphTable) (a : Nat) (b : Byte) (m : Memory) : Memory :=
  if b = resetByte g a then Memory.erase a m else Memory.insert a b m

/-- The canonical form: addresses strictly rising, each a location of the memory, no listed byte equal to what
the unlisted location reads as. -/
abbrev Memory.wf (g : GlyphTable) (m : Memory) : Prop :=
  m.Pairwise (fun p q => p.1 < q.1) ∧ ∀ c ∈ m, c.1 < memSize ∧ c.2 ≠ resetByte g c.1

/-- The address decoder: every address, fetch and data alike, is taken modulo 4096 (R57). -/
def location (a : Nat) : Nat := a % memSize

/-- `MemRead(a, 1)` (R58). -/
def State.memRead (s : State) (a : Nat) : Byte := Memory.read s.cfg.glyphTable s.mem (location a)

/-- `MemWrite(a, 1, b)` (R59). -/
def State.memWrite (a : Nat) (b : Byte) (s : State) : State :=
  { s with mem := Memory.write s.cfg.glyphTable (location a) b s.mem }

/-- Bytes stored at a, a + 1, …, in increasing order, each address decoded by itself (R57, R63). -/
def State.memWriteList (a : Nat) : List Byte → State → State
  | [], s => s
  | b :: rest, s => State.memWriteList (a + 1) rest (s.memWrite a b)

/-- `Fetch(A)` at the program counter: two byte reads, the high byte first (R77). -/
def State.fetchWord (s : State) : Word :=
  wordOfBytes (s.memRead s.pc.toNat) (s.memRead (s.pc.toNat + 1))

/-! ## General registers (R21, R22) -/

/-- VF, the flag register: "an ordinary general register in every other respect" (R22). -/
def vF : Reg := 15

/-- Read V[x]. -/
def State.readV (s : State) (x : Reg) : Byte := s.v[x.val]

/-- Write V[x]. -/
def State.writeV (x : Reg) (b : Byte) (s : State) : State := { s with v := s.v.set x.val b }

/-- `V[k] <- MemRead(a + k, 1)` for every k in 0..x; the registers above x keep their values (R129, log 16). -/
def State.loadRegs (x : Reg) (a : Nat) (s : State) : State :=
  { s with v := Vector.ofFn fun k : Reg => if k ≤ x then s.memRead (a + k.val) else s.readV k }

/-- V0..Vx as a list of bytes, V0 first (R128). -/
def State.regsUpTo (s : State) (x : Reg) : List Byte := s.v.toList.take (x.val + 1)

/-! ## Program counter and index register (R24 to R29) -/

/-- `PC <- v`. A 16-bit value is its own reduction modulo 65536 (R26). -/
def State.writePc (a : Word) (s : State) : State := { s with pc := a }

/-- PC <- (PC + 2) mod 65536: the fetch's pre-increment (R89) and the skip (R17). -/
def State.advancePc (s : State) : State := s.writePc (s.pc + 2#16)

/-- PC <- (PC − 2) mod 65536: back to A, the rewind of await-key (R137) and of a fault (R144). -/
def State.rewindPc (s : State) : State := s.writePc (s.pc - 2#16)

/-- "Advance program counter by 2 extra" when the condition holds (R17, R25). -/
def State.skipIf (c : Bool) (s : State) : State := if c then s.advancePc else s

/-- `I <- v` (R28). -/
def State.writeI (a : Word) (s : State) : State := { s with i := a }

/-! ## Call stack (R30 to R33) -/

/-- The stack already holds STACK_DEPTH entries (R31). -/
def stackFull (d : StackDepth) (st : List Word) : Bool :=
  match d with
  | .unbounded => false
  | .bounded n => decide (n ≤ st.length)

/-- `push(v)`; none is the fault StackOverflow (R31). -/
def State.push (a : Word) (s : State) : Option State :=
  if stackFull s.cfg.stackDepth s.stack then none else some { s with stack := a :: s.stack }

/-- `pop()`: the popped value and the state without it; none is the fault StackUnderflow (R32). -/
def State.pop (s : State) : Option (Word × State) :=
  match s.stack with
  | [] => none
  | top :: rest => some (top, { s with stack := rest })

/-! ## Timers (R34 to R36) -/

/-- `DT <- v` (R34). -/
def State.writeDt (b : Byte) (s : State) : State := { s with dt := b }

/-- `ST <- v` (R35). -/
def State.writeSt (b : Byte) (s : State) : State := { s with st := b }

/-- One countdown, "floored at 0, never going negative" (R36). -/
def countDown (b : Byte) : Byte := if b = 0#8 then 0#8 else b - 1#8

/-- `Tick()` (R36). -/
def State.tick (s : State) : State := { s with dt := countDown s.dt, st := countDown s.st }

/-! ## Frame buffer (R37) -/

/-- FB[col][row], false outside the display. -/
def FrameBuffer.cell (fb : FrameBuffer) (col row : Nat) : Bool :=
  if h : col < 64 ∧ row < 32 then (fb[col]'h.1)[row]'h.2 else false

/-- `FB[col][row] <- not FB[col][row]`; nothing outside the display. -/
def FrameBuffer.toggle (fb : FrameBuffer) (col row : Nat) : FrameBuffer :=
  if h : col < 64 ∧ row < 32 then fb.set col ((fb[col]'h.1).set row (!(fb[col]'h.1)[row]'h.2) h.2) h.1 else fb

/-- Every cell unlit (R96). -/
def FrameBuffer.unlit : FrameBuffer := Vector.replicate 64 (Vector.replicate 32 false)

/-- Replace the frame buffer. -/
def State.writeFb (fb : FrameBuffer) (s : State) : State := { s with fb := fb }

/-! ## Key panel (R38) -/

/-- KEY[k]. -/
def State.readKey (s : State) (k : Fin 16) : Bool := s.key[k.val]

/-- The lowest-numbered pressed key, if any is pressed (R137). -/
def State.lowestPressedKey (s : State) : Option (Fin 16) := (List.finRange 16).find? s.readKey

/-! ## The random-byte provider (R122) -/

/-- The byte the next draw gives: the host's next named byte, or the free byte of this draw (log 7). -/
def State.nextRandom (s : State) : Byte :=
  match s.provider with
  | b :: _ => b
  | [] => Config.randByte s.drawn

/-- The draw is used up: the next execution of Cxnn draws a new byte (R121). -/
def State.consumeRandom (s : State) : State :=
  match s.provider with
  | _ :: rest => { s with provider := rest }
  | [] => { s with drawn := s.drawn + 1 }

/-! ## Taking a fault (R138, R144 to R147) -/

/-- The code of a cause (R138). -/
def FaultCause.code : FaultCause → Nat
  | .stackUnderflow => 1
  | .stackOverflow => 2
  | .keyIndexRange => 3

/-- Taking a fault, the one shared operation: the fetch pre-increment is undone, so PC = A again, and the status
becomes Faulted with cause, A and the word; nothing else changes (R144, R145; log 9, log 10). The tick is left out
by the cycle driver (Machine/Cycle.lean). There is no return from a fault but `construct()` (R147), which is
`State.construct`. -/
def State.takeFault (c : FaultCause) (word : Word) (s : State) : State :=
  { s.rewindPc with status := .faulted ⟨c, s.rewindPc.pc, word⟩ }

end Sys2Proof.Machine
end

