-- ==== Sys2Proof/Machine/Flags.lean ====
section
/-! DEFINITION. The flag computations of VF (R41) and the shared shape of the flag-writing ALU instructions (R108). -/

namespace Sys2Proof.Machine

/-- A flag as the byte VF holds. -/
def flagByte (c : Bool) : Byte := if c then 1#8 else 0#8

/-- Carry of 8xy4: the unbounded sum exceeds 255 (R116). -/
def carryFlag (a b : Byte) : Bool := decide (255 < a.toNat + b.toNat)

/-- No-borrow of a − b: a ≥ b as unsigned numbers (R117, R119). -/
def noBorrowFlag (a b : Byte) : Bool := decide (b.toNat ≤ a.toNat)

/-- The bit 8xy6 shifts out: bit 0 (R118). -/
def lowBitFlag (a : Byte) : Bool := a.getLsbD 0

/-- The bit 8xyE shifts out: bit 7 (R120). -/
def highBitFlag (a : Byte) : Bool := a.getLsbD 7

/-- `a <- V[x]; b <- V[y]`, then `V[0xF] <- flag(a, b)`, then `V[x] <- result(a, b)` (R108, latched). -/
def State.flaggedLatched (flag : Byte → Byte → Bool) (result : Byte → Byte → Byte) (x y : Reg) (s : State) : State :=
  (s.writeV vF (flagByte (flag (s.readV x) (s.readV y)))).writeV x (result (s.readV x) (s.readV y))

/-- The two statements run literally in order: the result reads the registers after VF is written (R108, sequential). -/
def State.flaggedSequential (flag : Byte → Byte → Bool) (result : Byte → Byte → Byte) (x y : Reg) (s : State) : State :=
  let t := s.writeV vF (flagByte (flag (s.readV x) (s.readV y)))
  t.writeV x (result (t.readV x) (t.readV y))

/-- The order ALU_VF_ALIAS selects (R108). -/
def State.flagged (flag : Byte → Byte → Bool) (result : Byte → Byte → Byte) (x y : Reg) (s : State) : State :=
  match s.cfg.aluVfAlias with
  | .latched => s.flaggedLatched flag result x y
  | .sequential => s.flaggedSequential flag result x y

end Sys2Proof.Machine
end

