-- ==== Sys2Proof/Machine/Operands.lean ====
section
/-! DEFINITION. Operand forms: the immediates (R80), the key selected by a register (R134), the addresses of data
memory (R130), the glyph address (R126) and the decimal digits (R127). -/

namespace Sys2Proof.Machine

/-- nnn zero-extended to 16 bits (R80). -/
def addrOf (nnn : Addr12) : Word := nnn.zeroExtend 16

/-- An 8-bit value zero-extended to 16 bits (R80). -/
def wideOf (b : Byte) : Word := b.zeroExtend 16

/-- The base of every data access: I, as an unbounded integer (R57, R130). -/
def State.dataBase (s : State) : Nat := s.i.toNat

/-- `0x50 + v × 5`, v not masked (R126). -/
def glyphAddress (b : Byte) : Word := BitVec.ofNat 16 (glyphBase + b.toNat * glyphBytes)

/-- The hundreds, tens and ones digits of a byte (R127). -/
def bcdDigits (b : Byte) : List Byte :=
  [BitVec.ofNat 8 (b.toNat / 100), BitVec.ofNat 8 (b.toNat / 10 % 10), BitVec.ofNat 8 (b.toNat % 10)]

/-- The key whose number is v mod 16. -/
def keyOf (b : Byte) : Fin 16 := ⟨b.toNat % 16, Nat.mod_lt _ (by decide)⟩

/-- `KeyPressed(v)`; none is the fault KeyIndexRange (R134). -/
def State.keyPressed (s : State) (b : Byte) : Option Bool :=
  if b.toNat < 16 then some (s.readKey (keyOf b))
  else match s.cfg.keyIndexPolicy with
    | .fault => none
    | .mask => some (s.readKey (keyOf b))
    | .notPressed => some false

end Sys2Proof.Machine
end

