-- ==== Sys2Proof/Machine/Alu.lean ====
section
/-! DEFINITION. The ALU and register instructions (R108 to R123). -/

namespace Sys2Proof.Machine

/-- `load-imm Vx, nn` (R110). -/
def execLoadImm (x : Reg) (nn : Byte) (s : State) : Host.Outcome State Fault Refusal :=
  .next (s.writeV x nn)

/-- `add-imm Vx, nn` (R111): modulo 256, no flag effect. -/
def execAddImm (x : Reg) (nn : Byte) (s : State) : Host.Outcome State Fault Refusal :=
  .next (s.writeV x (s.readV x + nn))

/-- `copy Vx, Vy` (R112). -/
def execCopy (x y : Reg) (s : State) : Host.Outcome State Fault Refusal :=
  .next (s.writeV x (s.readV y))

/-- `or Vx, Vy` (R113). -/
def execOrReg (x y : Reg) (s : State) : Host.Outcome State Fault Refusal :=
  .next (s.writeV x (s.readV x ||| s.readV y))

/-- `and Vx, Vy` (R114). -/
def execAndReg (x y : Reg) (s : State) : Host.Outcome State Fault Refusal :=
  .next (s.writeV x (s.readV x &&& s.readV y))

/-- `xor Vx, Vy` (R115). -/
def execXorReg (x y : Reg) (s : State) : Host.Outcome State Fault Refusal :=
  .next (s.writeV x (s.readV x ^^^ s.readV y))

/-- `add-reg Vx, Vy` (R116): the sum is formed first under both settings of ALU_VF_ALIAS. -/
def execAddReg (x y : Reg) (s : State) : Host.Outcome State Fault Refusal :=
  .next (s.flaggedLatched carryFlag (fun a b => a + b) x y)

/-- `sub Vx, Vy` (R117). -/
def execSub (x y : Reg) (s : State) : Host.Outcome State Fault Refusal :=
  .next (s.flagged noBorrowFlag (fun a b => a - b) x y)

/-- `shift-right Vx` (R118): the y field is encoded but not read. -/
def execShiftRight (x : Reg) (s : State) : Host.Outcome State Fault Refusal :=
  .next (s.flagged (fun a _ => lowBitFlag a) (fun a _ => a >>> 1) x x)

/-- `subn Vx, Vy` (R119). -/
def execSubn (x y : Reg) (s : State) : Host.Outcome State Fault Refusal :=
  .next (s.flagged (fun a b => noBorrowFlag b a) (fun a b => b - a) x y)

/-- `shift-left Vx` (R120): the y field is encoded but not read. -/
def execShiftLeft (x : Reg) (s : State) : Host.Outcome State Fault Refusal :=
  .next (s.flagged (fun a _ => highBitFlag a) (fun a _ => a <<< 1) x x)

/-- `random-and Vx, nn` (R121): one byte drawn for this execution, masked. -/
def execRandomAnd (x : Reg) (nn : Byte) (s : State) : Host.Outcome State Fault Refusal :=
  .next (s.consumeRandom.writeV x (s.nextRandom &&& nn))

end Sys2Proof.Machine
end

