-- ==== Sys2Proof/Machine/ControlFlow.lean ====
section
/-! DEFINITION. The control-flow instructions (R99 to R107). On entry PC = A + 2, A the instruction's address (R89). -/

namespace Sys2Proof.Machine

/-- `return` (R99): `PC <- pop()`; an empty stack takes StackUnderflow (R139). -/
def execRet (s : State) : Host.Outcome State Fault Refusal :=
  match s.pop with
  | some (top, t) => .next (t.writePc top)
  | none => .next (s.takeFault .stackUnderflow (encode .ret))

/-- `jump nnn` (R100): an odd nnn makes PC odd, against the last sentence of R27 (log 21). -/
def execJump (nnn : Addr12) (s : State) : Host.Outcome State Fault Refusal :=
  .next (s.writePc (addrOf nnn))

/-- `call nnn` (R101): `push(PC); PC <- nnn`; a full bounded stack takes StackOverflow (R140). An odd
nnn makes PC odd, against the last sentence of R27 (log 21). -/
def execCall (nnn : Addr12) (s : State) : Host.Outcome State Fault Refusal :=
  match s.push s.pc with
  | some t => .next (t.writePc (addrOf nnn))
  | none => .next (s.takeFault .stackOverflow (encode (.call nnn)))

/-- `skip-eq-imm Vx, nn` (R102). -/
def execSkipEqImm (x : Reg) (nn : Byte) (s : State) : Host.Outcome State Fault Refusal :=
  .next (s.skipIf (s.readV x == nn))

/-- `skip-ne-imm Vx, nn` (R103). -/
def execSkipNeImm (x : Reg) (nn : Byte) (s : State) : Host.Outcome State Fault Refusal :=
  .next (s.skipIf (s.readV x != nn))

/-- `skip-eq-reg Vx, Vy` (R104). -/
def execSkipEqReg (x y : Reg) (s : State) : Host.Outcome State Fault Refusal :=
  .next (s.skipIf (s.readV x == s.readV y))

/-- `skip-ne-reg Vx, Vy` (R105). -/
def execSkipNeReg (x y : Reg) (s : State) : Host.Outcome State Fault Refusal :=
  .next (s.skipIf (s.readV x != s.readV y))

/-- `jump-offset nnn` (R106): always V0, whatever the x field holds. -/
def execJumpOffset (nnn : Addr12) (s : State) : Host.Outcome State Fault Refusal :=
  .next (s.writePc (addrOf nnn + wideOf (s.readV 0)))

end Sys2Proof.Machine
end

