-- ==== Sys2Proof/Machine/Display.lean ====
section
/-! DEFINITION. The display instructions: clear (R96) and draw (R97). -/

namespace Sys2Proof.Machine

/-- `clear` (R96): every cell unlit, nothing else. -/
def execClear (s : State) : Host.Outcome State Fault Refusal :=
  .next (s.writeFb FrameBuffer.unlit)

/-- A frame buffer being drawn on, and whether a lit cell has been toggled off so far. -/
abbrev Canvas := FrameBuffer × Bool

/-- One set sprite bit toggles its cell and reports a collision if the cell was lit; a zero bit does nothing (R97). -/
def drawBit (bit : Bool) (col row : Nat) (c : Canvas) : Canvas :=
  if bit then (c.1.toggle col row, c.2 || c.1.cell col row) else c

/-- How many columns of a row starting at column cx lie on the display: the column loop stops at 64 (R97, log 15). -/
def colsDrawn (cx : Nat) : Nat := min 8 (displayW - cx)

/-- How many of the n rows starting at row cy lie on the display: the row loop stops at 32 (R97, R63, log 15). -/
def rowsDrawn (n cy : Nat) : Nat := min n (displayH - cy)

/-- One sprite row, most-significant bit first, from column cx (R97). -/
def drawRow (b : Byte) (cx row : Nat) (c : Canvas) : Canvas :=
  (List.range (colsDrawn cx)).foldl (fun acc k => drawBit (b.getMsbD k) (cx + k) row acc) c

/-- The n rows of the sprite whose r-th byte is `sprite r`, from column cx and row cy (R97). -/
def drawSprite (sprite : Nat → Byte) (cx cy n : Nat) (c : Canvas) : Canvas :=
  (List.range (rowsDrawn n cy)).foldl (fun acc r => drawRow (sprite r) cx (cy + r) acc) c

/-- The sprite of n rows at I drawn at (Vx mod 64, Vy mod 32) on the present frame buffer (R97). -/
def State.drawnCanvas (x y : Reg) (n : Nibble) (s : State) : Canvas :=
  drawSprite (fun r => s.memRead (s.dataBase + r)) ((s.readV x).toNat % displayW) ((s.readV y).toNat % displayH)
    n.toNat (s.fb, false)

/-- `draw Vx, Vy, n` (R97): the position is latched before VF is written (D25, log 17); VF ends as the collision flag. -/
def execDraw (x y : Reg) (n : Nibble) (s : State) : Host.Outcome State Fault Refusal :=
  .next ((s.writeFb (s.drawnCanvas x y n).1).writeV vF (flagByte (s.drawnCanvas x y n).2))

end Sys2Proof.Machine
end

