-- ==== Sys2Proof/Machine/IndexMemory.lean ====
section
/-! DEFINITION. The index-register and memory instructions (R124 to R130). None of them changes I but the first three. -/

namespace Sys2Proof.Machine

/-- `load-index nnn` (R124). -/
def execLoadIndex (nnn : Addr12) (s : State) : Host.Outcome State Fault Refusal :=
  .next (s.writeI (addrOf nnn))

/-- `add-index Vx` (R125): modulo 65536, no flag. -/
def execAddIndex (x : Reg) (s : State) : Host.Outcome State Fault Refusal :=
  .next (s.writeI (s.i + wideOf (s.readV x)))

/-- `font-address Vx` (R126). -/
def execFontAddress (x : Reg) (s : State) : Host.Outcome State Fault Refusal :=
  .next (s.writeI (glyphAddress (s.readV x)))

/-- `bcd-store Vx` (R127). -/
def execBcdStore (x : Reg) (s : State) : Host.Outcome State Fault Refusal :=
  .next (s.memWriteList s.dataBase (bcdDigits (s.readV x)))

/-- `store-block Vx` (R128). -/
def execStoreBlock (x : Reg) (s : State) : Host.Outcome State Fault Refusal :=
  .next (s.memWriteList s.dataBase (s.regsUpTo x))

/-- `load-block Vx` (R129). -/
def execLoadBlock (x : Reg) (s : State) : Host.Outcome State Fault Refusal :=
  .next (s.loadRegs x s.dataBase)

end Sys2Proof.Machine
end

