-- ==== Sys2Proof/Machine/TimersKeys.lean ====
section
/-! DEFINITION. The timer and key instructions (R131 to R137). -/

namespace Sys2Proof.Machine

/-- `read-delay Vx` (R131): DT before this cycle's tick. -/
def execReadDelay (x : Reg) (s : State) : Host.Outcome State Fault Refusal :=
  .next (s.writeV x s.dt)

/-- `write-delay Vx` (R132). -/
def execWriteDelay (x : Reg) (s : State) : Host.Outcome State Fault Refusal :=
  .next (s.writeDt (s.readV x))

/-- `write-sound Vx` (R133). -/
def execWriteSound (x : Reg) (s : State) : Host.Outcome State Fault Refusal :=
  .next (s.writeSt (s.readV x))

/-- `skip-key-pressed Vx` (R135); a key number out of range takes KeyIndexRange under the policy fault (R141). -/
def execSkipKeyPressed (x : Reg) (s : State) : Host.Outcome State Fault Refusal :=
  match s.keyPressed (s.readV x) with
  | some pressed => .next (s.skipIf pressed)
  | none => .next (s.takeFault .keyIndexRange (encode (.skipKeyPressed x)))

/-- `skip-key-released Vx` (R136); a key number out of range takes KeyIndexRange under the policy fault (R141). -/
def execSkipKeyReleased (x : Reg) (s : State) : Host.Outcome State Fault Refusal :=
  match s.keyPressed (s.readV x) with
  | some pressed => .next (s.skipIf (!pressed))
  | none => .next (s.takeFault .keyIndexRange (encode (.skipKeyReleased x)))

/-- `await-key Vx` (R137): the lowest-numbered pressed key, or PC back to A so that the next cycle issues the
instruction again. -/
def execAwaitKey (x : Reg) (s : State) : Host.Outcome State Fault Refusal :=
  match s.lowestPressedKey with
  | some k => .next (s.writeV x (BitVec.ofNat 8 k.val))
  | none => .next s.rewindPc

end Sys2Proof.Machine
end

