-- ==== Sys2Proof/Machine/Cycle.lean ====
section
/-! DEFINITION. The cycle driver (R88 to R92): fetch, pre-increment, decode, execute, tick. -/

namespace Sys2Proof.Machine

/-- `Execute(w)`: the decoded instruction, or a no-op for an unmatched word (R82, R85). -/
def executeWord (w : Word) (s : State) : Host.Outcome State Fault Refusal :=
  match decode s.cfg.decode59 w with
  | .ok i => exec i s
  | .error _ => .next s

/-- The end of a cycle: the tick, unless the instruction took a fault (R88, R90, R144). -/
def completeCycle (s : State) : State :=
  match s.status with
  | .running => s.tick
  | .faulted _ => s

/-- One cycle of a running core, or the halt of a faulted one (R88, R91). -/
def cycleStep (s : State) : Host.Outcome State Fault Refusal :=
  match s.status with
  | .faulted r => .fault (.halted r)
  | .running =>
    match executeWord s.fetchWord s.advancePc with
    | .next t => .next (completeCycle t)
    | .fault f => .fault f
    | .refused r => .refused r

/-- The two bytes of a word stored where the next fetch reads them, high byte first (R60, R77), on a core
that runs: the word a host `load` would place there (R47, R159; log 13, log 14). -/
def State.placeWord (s : State) (w : Word) : State :=
  { s.memWriteList s.pc.toNat [highByte w, lowByte w] with status := .running }

end Sys2Proof.Machine
end

