-- ==== Sys2Proof/Machine/Step.lean ====
section
/-! DEFINITION. One step of the machine is one cycle (R49, R92). -/

namespace Sys2Proof.Machine

/-- One cycle. A fault taken by the instruction is a next state whose status is Faulted (R145); the cycle after
it does nothing and is the stop `Fault.halted` (R91; log 9). -/
def step (s : State) : Host.Outcome State Fault Refusal := cycleStep s

/-- The state with a table word stored where `step` fetches its next instruction (log 13). -/
def State.withFetchWord (s : State) (nbits w : Nat) : State := s.placeWord (tableWord nbits w)

end Sys2Proof.Machine
end

