-- ==== Sys2Proof/Machine/HostInterface.lean ====
section
/-! DEFINITION. The block's interface: the transactions of rules R45 to R52, each atomic and only between cycles
(R53), and the host errors of rule R143. -/

namespace Sys2Proof.Machine

/-- Host errors: results of interface operations that leave the state unchanged (R143). -/
inductive HostError where
  /-- `load` past the end of memory (R47). -/
  | loadRange
  /-- `setKey` with an index outside 0..15 (R48). -/
  | invalidKeyIndex
deriving DecidableEq, Repr

/-- The result of `cycle()` (R49). -/
inductive CycleResult where
  | ok
  | fault (r : FaultRecord)
  | halted (r : FaultRecord)
  /-- An instruction without a meaning. No instruction of this model gives it. -/
  | refused (r : Refusal)
deriving DecidableEq, Repr

/-- `load(bytes, base)` (R47): the bytes at base, base + 1, …, or LoadRange and no change. -/
def load (bytes : List Byte) (base : Nat) (s : State) : Except HostError State :=
  if base + bytes.length ≤ memSize then .ok (s.memWriteList base bytes) else .error .loadRange

/-- `setKey(index, pressed)` (R48): the key is set to `pressed`, or InvalidKeyIndex and no change. -/
def setKey (index : Int) (pressed : Bool) (s : State) : Except HostError State :=
  if 0 ≤ index ∧ index < 16 then .ok { s with key := s.key.setIfInBounds index.toNat pressed }
  else .error .invalidKeyIndex

/-- The result `cycle()` reports for a completed step. -/
def cycleReport (t : State) : CycleResult :=
  match t.status with
  | .running => .ok
  | .faulted r => .fault r

/-- `cycle()` (R49): the state after it and what it reports. -/
def cycle (s : State) : State × CycleResult :=
  match step s with
  | .next t => (t, cycleReport t)
  | .fault (.halted r) => (s, .halted r)
  | .refused r => (s, .refused r)

/-- `frameBuffer()` (R50). -/
def frameBuffer (s : State) : FrameBuffer := s.fb

/-- `soundTimer()` (R51). -/
def soundTimer (s : State) : Byte := s.st

/-- `status()` (R52). -/
def statusOf (s : State) : Status := s.status

/-- `construct()` applied to a machine: the whole state of the core is replaced (R46, R157). The parameters are the
machine's own, and the random-byte provider, which is outside the core (R122), stays where it is: bytes the host has
named are still the next draws, and free bytes already drawn do not come again (log 7). -/
def reconstruct (s : State) : State := { State.construct s.cfg with provider := s.provider, drawn := s.drawn }

/-- The transactions that can change the state (R45). -/
inductive Transaction where
  | construct
  | load (bytes : List Byte) (base : Nat)
  | setKey (index : Int) (pressed : Bool)
  | cycle
deriving DecidableEq, Repr

/-- The state a transaction leaves; a failed one leaves the state alone (R47, R48, R143). -/
def transact (op : Transaction) (s : State) : State :=
  match op with
  | .construct => reconstruct s
  | .load bytes base => match load bytes base s with
    | .ok t => t
    | .error _ => s
  | .setKey index pressed => match setKey index pressed s with
    | .ok t => t
    | .error _ => s
  | .cycle => (cycle s).1

end Sys2Proof.Machine
end

