-- ==== Sys2Proof/Safety.lean ====
section
/-! DEFINITION. What claims are stated in: the parts of the state and what a frame leaves unchanged, the invariant
of the state, the end of a run (R164), and readings of the spec's tables (R23, R25, R63, R134, R138). -/

namespace Sys2Proof.Machine

/-! ## The parts of the state -/

/-- Every separately readable part of the state; `Laws/Safety.lean` proves that they are all of it. -/
inductive Part where
  | reg (r : Reg)
  | byte (a : Nat)
  | index
  | pc
  | stack
  | delay
  | sound
  | cell (col row : Nat)
  | key (k : Fin 16)
  | status
  | cfg
  | provider
  | drawn
deriving DecidableEq, Repr

/-- The part reads the same in both states. -/
def samePart (p : Part) (s t : State) : Prop :=
  match p with
  | .reg r => t.readV r = s.readV r
  | .byte a => t.memRead a = s.memRead a
  | .index => t.i = s.i
  | .pc => t.pc = s.pc
  | .stack => t.stack = s.stack
  | .delay => t.dt = s.dt
  | .sound => t.st = s.st
  | .cell col row => t.fb.cell col row = s.fb.cell col row
  | .key k => t.readKey k = s.readKey k
  | .status => t.status = s.status
  | .cfg => t.cfg = s.cfg
  | .provider => t.provider = s.provider
  | .drawn => t.drawn = s.drawn

/-- The frame: every part that is not named reads as before. -/
def changesOnly (may : Part → Prop) (s t : State) : Prop := ∀ p, ¬ may p → samePart p s t

/-- The cells of the frame buffer. -/
def anyCell (p : Part) : Prop := ∃ col row, p = .cell col row

/-- The bytes an access of `len` bytes at a reaches, each address decoded by itself (R57). -/
def storedBytes (a len : Nat) (p : Part) : Prop := ∃ b k, p = .byte b ∧ k < len ∧ location b = location (a + k)

/-! ## Encodings -/

/-- The word of number n, and no other, is the instruction i, under both settings of DECODE_5_9. -/
def onlyWord (i : Instr) (n : Nat) : Prop := ∀ d w, decode d w = .ok i ↔ w.toNat = n

/-! ## Invariant, end of a run -/

/-- The call stack respects STACK_DEPTH (R30, R31). -/
def stackWithinDepth (d : StackDepth) (st : List Word) : Prop :=
  match d with
  | .unbounded => True
  | .bounded n => st.length ≤ n

/-- The invariant: memory is in canonical form, the parameters are legal, the stack respects its bound. -/
structure StateInv (s : State) : Prop where
  memory : Memory.wf s.cfg.glyphTable s.mem
  config : s.cfg.wf
  stack : stackWithinDepth s.cfg.stackDepth s.stack

/-- The run has ended in a self-jump: PC = A < 4096 and the word at A is `jump A` (R164 (b)). -/
def atSelfJump (s : State) : Prop :=
  s.status = .running ∧ s.pc.toNat < memSize ∧ s.fetchWord.toNat = 0x1000 + s.pc.toNat

/-- The end of a run (R164): a fault, or a self-jump. -/
def endOfRun (s : State) : Prop := s.status ≠ .running ∨ atSelfJump s

/-! ## Readings of the spec's tables -/

/-- The writes column of rule R23. -/
def writesReg : Instr → Reg → Prop
  | .loadImm x _, r | .randomAnd x _, r | .readDelay x, r | .awaitKey x, r | .addImm x _, r => r = x
  | .copy x _, r | .orReg x _, r | .andReg x _, r | .xorReg x _, r => r = x
  | .addReg x _, r | .sub x _, r | .subn x _, r | .shiftRight x _, r | .shiftLeft x _, r => r = x ∨ r = vF
  | .draw _ _ _, r => r = vF
  | .loadBlock x, r => r ≤ x
  | .clear, _ | .ret, _ | .jump _, _ | .call _, _ | .skipEqImm _ _, _ | .skipNeImm _ _, _ | .skipEqReg _ _ _, _
  | .skipNeReg _ _ _, _ | .loadIndex _, _ | .jumpOffset _, _ | .skipKeyPressed _, _ | .skipKeyReleased _, _
  | .writeDelay _, _ | .writeSound _, _ | .addIndex _, _ | .fontAddress _, _ | .bcdStore _, _ | .storeBlock _, _ => False

/-- The instructions rule R25 lists by name; every other leaves PC = A + 2. -/
def setsPc : Instr → Prop
  | .skipEqImm _ _ | .skipNeImm _ _ | .skipEqReg _ _ _ | .skipNeReg _ _ _ | .skipKeyPressed _ | .skipKeyReleased _
  | .jump _ | .call _ | .jumpOffset _ | .ret | .awaitKey _ => True
  | .clear | .loadImm _ _ | .addImm _ _ | .copy _ _ | .orReg _ _ | .andReg _ _ | .xorReg _ _ | .addReg _ _ | .sub _ _
  | .shiftRight _ _ | .subn _ _ | .shiftLeft _ _ | .loadIndex _ | .randomAnd _ _ | .draw _ _ _ | .readDelay _
  | .writeDelay _ | .writeSound _ | .addIndex _ | .fontAddress _ | .bcdStore _ | .storeBlock _ | .loadBlock _ => False

/-- The writes column of rule R63: how many bytes an instruction stores, all at I, I + 1, …. -/
def bytesStored : Instr → Nat
  | .bcdStore _ => 3
  | .storeBlock x => x.val + 1
  | .clear | .ret | .jump _ | .call _ | .skipEqImm _ _ | .skipNeImm _ _ | .skipEqReg _ _ _ | .loadImm _ _ | .addImm _ _
  | .copy _ _ | .orReg _ _ | .andReg _ _ | .xorReg _ _ | .addReg _ _ | .sub _ _ | .shiftRight _ _ | .subn _ _
  | .shiftLeft _ _ | .skipNeReg _ _ _ | .loadIndex _ | .jumpOffset _ | .randomAnd _ _ | .draw _ _ _
  | .skipKeyPressed _ | .skipKeyReleased _ | .readDelay _ | .awaitKey _ | .writeDelay _ | .writeSound _ | .addIndex _
  | .fontAddress _ | .loadBlock _ => 0

/-- `KeyPressed(v)` answers p (R134); no p for the case that raises KeyIndexRange. -/
def selectsKey (s : State) (v : Byte) (p : Bool) : Prop :=
  (∃ k : Fin 16, k.val = v.toNat ∧ p = s.readKey k) ∨
  (16 ≤ v.toNat ∧ s.cfg.keyIndexPolicy = .mask ∧ ∃ k : Fin 16, k.val = v.toNat % 16 ∧ p = s.readKey k) ∨
  (16 ≤ v.toNat ∧ s.cfg.keyIndexPolicy = .notPressed ∧ p = false)

/-- The condition under which the instruction fetched at PC raises a cause (R138). -/
def faultCondition (s : State) : FaultCause → Prop
  | .stackUnderflow => s.fetchWord = 0x00EE#16 ∧ s.stack = []
  | .stackOverflow => s.fetchWord.toNat / 0x1000 = 2 ∧ s.cfg.stackDepth = .bounded s.stack.length
  | .keyIndexRange => ∃ x : Reg, (s.fetchWord.toNat = 0xE09E + 0x100 * x.val ∨ s.fetchWord.toNat = 0xE0A1 + 0x100 * x.val) ∧
      16 ≤ (s.readV x).toNat ∧ s.cfg.keyIndexPolicy = .fault

/-- The sprite of `draw Vx, Vy, n` has a set bit on the display cell (col, row): row r = row − cy of the n rows,
bit 7 − c for column c = col − cx (R97). -/
def spriteBit (s : State) (x y : Reg) (n : Nibble) (col row : Nat) : Prop :=
  let cx := (s.readV x).toNat % 64
  let cy := (s.readV y).toNat % 32
  col < 64 ∧ row < 32 ∧ cx ≤ col ∧ col ≤ cx + 7 ∧ cy ≤ row ∧ row < cy + n.toNat ∧
    (s.memRead (s.i.toNat + (row - cy))).getLsbD (7 - (col - cx)) = true

/-! ## What a program cannot observe -/

/-- Two addresses the decoder cannot tell apart (R57). -/
def congruent (a b : Word) : Prop := location a.toNat = location b.toNat

/-- The same status up to congruent addresses in the fault record. -/
def statusAlike : Status → Status → Prop
  | .running, .running => True
  | .faulted r, .faulted r' => r.cause = r'.cause ∧ congruent r.pc r'.pc ∧ r.word = r'.word
  | .running, .faulted _ => False
  | .faulted _, .running => False

/-- Two states that differ at most in multiples of 4096 in PC, I, the stacked return addresses and the recorded
address of a fault (R26, R29). -/
structure AlikeModuloMemory (s t : State) : Prop where
  mem : t.mem = s.mem
  v : t.v = s.v
  i : congruent s.i t.i
  pc : congruent s.pc t.pc
  stack : List.Forall₂ congruent s.stack t.stack
  dt : t.dt = s.dt
  st : t.st = s.st
  fb : t.fb = s.fb
  key : t.key = s.key
  status : statusAlike s.status t.status
  cfg : t.cfg = s.cfg
  provider : t.provider = s.provider
  drawn : t.drawn = s.drawn

end Sys2Proof.Machine
end

