-- ==== Sys2Proof/Certificates/Slice0/Obligations.lean ====
section
/-! DEFINITION. The statements for the provers, from the numbered rules of spec/. A frame is `changesOnly`: every part
of the state that is not named reads as before. "On entry" PC = A + 2, A the instruction's address (R89). -/

open Sys2Proof Sys2Proof.Machine

/-! ## Encoding and decoding -/

/-- Decoding the word of any well-formed instruction gives the instruction back, every operand at every value, under
both settings of DECODE_5_9 (R80, R82 to R84). -/
def Obligations.DecodeOfEncodeIsTheInstruction : Prop :=
  ∀ d i, i.wellFormed d = true → decode d (encode i) = .ok i

/-- A word that decodes is the word of the instruction it decodes to, and that instruction is well formed: two words
never name one instruction (R82). -/
def Obligations.EncodeOfDecodeIsTheWord : Prop :=
  ∀ d w i, decode d w = .ok i → encode i = w ∧ i.wellFormed d = true

/-- Under the default `strict` a word names an instruction exactly when it has the fixed bits of that instruction's row
of opcode_table.json; every other word is unmatched (R82 to R84). -/
def Obligations.OpcodeTableSelectsTheInstruction : Prop :=
  (∀ (w : Word) (i : Instr), decode .strict w = .ok i → i.row.matchesWord w = true) ∧
  (∀ (w : Word) (i : Instr), i.row.matchesWord w = true → ∃ j, decode .strict w = .ok j ∧ j.row = i.row)

/-- Words written out from the encodings of rule R94 decode to the instructions they stand for, one or more per family,
and the two settings of DECODE_5_9 read 5121 as rule R83 says. -/
def Obligations.WordsWrittenOutDecode : Prop :=
  decode .strict 0x00E0 = .ok .clear ∧ decode .strict 0xD125 = .ok (.draw 1 2 5) ∧
  decode .strict 0x00EE = .ok .ret ∧ decode .strict 0x2ABC = .ok (.call 0xABC) ∧
  decode .strict 0xB521 = .ok (.jumpOffset 0x521) ∧ decode .strict 0x3310 = .ok (.skipEqImm 3 0x10) ∧
  decode .strict 0x6155 = .ok (.loadImm 1 0x55) ∧ decode .strict 0x8AB4 = .ok (.addReg 10 11) ∧
  decode .strict 0x8566 = .ok (.shiftRight 5 6) ∧ decode .strict 0xC10F = .ok (.randomAnd 1 0x0F) ∧
  decode .strict 0xA300 = .ok (.loadIndex 0x300) ∧ decode .strict 0xF265 = .ok (.loadBlock 2) ∧
  decode .strict 0xF115 = .ok (.writeDelay 1) ∧ decode .strict 0xE2A1 = .ok (.skipKeyReleased 2) ∧
  decode .strict 0x5121 = .error (.group5 0x5121) ∧ decode .ignoreN 0x5121 = .ok (.skipEqReg 1 2 1)

/-! ## Memory and fetch -/

/-- Every access decodes its address modulo 4096 (R57, R58; the spec's decision D2): a read returns the byte of the location, and a write at an
address is the write at its location. -/
def Obligations.AddressesAreTakenModulo4096 : Prop :=
  ∀ (s : State) (a : Nat), s.memRead a = s.memRead (a % 4096) ∧ ∀ b, s.memWrite a b = s.memWrite (a % 4096) b

/-- A byte written at an address is read there, and the write changes no other location and no other state (R59). -/
def Obligations.MemWriteSetsItsLocationOnly : Prop :=
  ∀ (s : State) (a : Nat) (b : Byte),
    (s.memWrite a b).memRead a = b ∧ changesOnly (storedBytes a 1) s (s.memWrite a b)

/-- The fetched word is big-endian: the byte at PC times 256 plus the byte at PC + 1, each address taken modulo 4096,
so that a fetch at location 0xFFF takes its low byte from 0x000 (R61, R77). -/
def Obligations.FetchReadsTwoBytesHighByteFirst : Prop :=
  ∀ s : State,
    s.fetchWord.toNat = (s.memRead (s.pc.toNat % 4096)).toNat * 256 + (s.memRead ((s.pc.toNat + 1) % 4096)).toNat ∧
    (s.pc.toNat % 4096 = 0xFFF → s.fetchWord.toNat = (s.memRead 0xFFF).toNat * 256 + (s.memRead 0).toNat)

/-- A fetch sees every earlier store: two bytes stored at PC and PC + 1, wherever PC stands, are the word the next
fetch reads (R74; the spec's decision D14). -/
def Obligations.FetchSeesEarlierStores : Prop :=
  ∀ (s : State) (hi lo : Byte), (s.memWriteList s.pc.toNat [hi, lo]).fetchWord.toNat = hi.toNat * 256 + lo.toNat

/-! ## The cycle driver -/

/-- A step of a running core runs the instruction the word at PC decodes to, at the state with PC advanced by 2, and
then ticks both timers unless the instruction took a fault (R88 to R90; the tick's
place and its absence after a fault are the spec's D24 and D6, log 18; that the fault is a next state is log 9). -/
def Obligations.StepRunsTheDecodedInstruction : Prop :=
  ∀ (s : State) (i : Instr), s.status = .running → decode s.cfg.decode59 s.fetchWord = .ok i →
    ∃ t, exec i { s with pc := s.pc + 2 } = .next t ∧
      (t.status ≠ .running → step s = .next t) ∧
      (t.status = .running → ∃ u, step s = .next u ∧ u.dt.toNat = t.dt.toNat - 1 ∧ u.st.toNat = t.st.toNat - 1 ∧
        u.mem = t.mem ∧ changesOnly (fun p => p = .delay ∨ p = .sound) t u)

/-- A step of a running core whose word is unmatched changes nothing but PC, which advances by 2 modulo 65536 (the
spec's D3, log 12), and the timers, which tick (R85). -/
def Obligations.UnmatchedWordIsANoOp : Prop :=
  ∀ (s : State) (e : DecodeReject), s.status = .running → decode s.cfg.decode59 s.fetchWord = .error e →
    ∃ t, step s = .next t ∧ t.pc.toNat = (s.pc.toNat + 2) % 65536 ∧ t.dt.toNat = s.dt.toNat - 1 ∧
      t.st.toNat = s.st.toNat - 1 ∧ changesOnly (fun p => p = .pc ∨ p = .delay ∨ p = .sound) s t

/-- `cycle()` on a faulted core changes no state and returns Halted with the record (R91, the spec's D7). That `step` answers this as a
stop is the model's choice (log 9). -/
def Obligations.FaultedCoreDoesNothing : Prop :=
  ∀ (s : State) (r : FaultRecord), s.status = .faulted r → cycle s = (s, .halted r) ∧ step s = .fault (.halted r)

/-- A step answers a next state exactly on a running core, whatever word it fetches; it never refuses (R91, R142; the spec's D7, log 9). -/
def Obligations.StepAnswersNextExactlyWhenRunning : Prop :=
  (∀ s : State, (∃ t, step s = .next t) ↔ s.status = .running) ∧ ∀ (s : State) (r : Refusal), step s ≠ .refused r

/-- Every cycle that does not fault ticks each timer once, floored at 0, after the instruction; so a timer written by
Fx15 or Fx18 ends one below the register it was written from, and every other instruction leaves it one below its old
value (R36, R90; the spec's D24). -/
def Obligations.EveryCompletedCycleTicksOnce : Prop :=
  ∀ s t : State, step s = .next t → t.status = .running →
    (∀ x, decode s.cfg.decode59 s.fetchWord = .ok (.writeDelay x) → t.dt.toNat = (s.readV x).toNat - 1) ∧
    ((∀ x, decode s.cfg.decode59 s.fetchWord ≠ .ok (.writeDelay x)) → t.dt.toNat = s.dt.toNat - 1) ∧
    (∀ x, decode s.cfg.decode59 s.fetchWord = .ok (.writeSound x) → t.st.toNat = (s.readV x).toNat - 1) ∧
    ((∀ x, decode s.cfg.decode59 s.fetchWord ≠ .ok (.writeSound x)) → t.st.toNat = s.st.toNat - 1)

/-- A step that faults leaves the state before the cycle with the status set to Faulted, PC = A and the word in the
record; no tick, nothing else (R144, R145; the spec's D6 and D35). -/
def Obligations.FaultsArePrecise : Prop :=
  ∀ (s t : State) (r : FaultRecord), step s = .next t → t.status = .faulted r →
    t = { s with status := .faulted r } ∧ r.pc = s.pc ∧ r.word = s.fetchWord

/-- A step of a running core faults with a cause exactly under the condition rule R138 lists for it (two of
them from the spec's D5 and D8). The premise is the
invariant: a stack longer than its bound is in no run. -/
def Obligations.FaultsAriseExactlyAsListed : Prop :=
  ∀ s t : State, StateInv s → s.status = .running → step s = .next t → ∀ c : FaultCause,
    (∃ r, t.status = .faulted r ∧ r.cause = c) ↔ faultCondition s c

/-- From Faulted only `construct()` leads back to Running; every other transaction keeps the fault record, and a cycle
changes nothing at all (R39, R147; the spec's D6 and D7). -/
def Obligations.OnlyConstructLeavesFaulted : Prop :=
  ∀ (s : State) (r : FaultRecord), s.status = .faulted r →
    (∀ op, op ≠ .construct → (transact op s).status = .faulted r) ∧ transact .cycle s = s ∧
    (transact .construct s).status = .running

/-- A cycle reports Ok when it completes, Fault with the record its instruction left in the status, Halted when the core
was faulted before (R49; the spec's D7). -/
def Obligations.CycleReportsItsResult : Prop :=
  ∀ s : State, (s.status = .running → (∃ t, step s = .next t ∧ (cycle s).1 = t ∧
      ((cycle s).2 = .ok ↔ t.status = .running) ∧ ∀ r, (cycle s).2 = .fault r ↔ t.status = .faulted r)) ∧
    ∀ r, s.status = .faulted r → (cycle s).2 = .halted r

/-! ## Invariants and whole-machine rules -/

/-- Every step keeps the invariant: memory in canonical form (log 11), legal parameters, the stack within
STACK_DEPTH. -/
def Obligations.StepKeepsTheInvariant : Prop := ∀ s t : State, StateInv s → step s = .next t → StateInv t

/-- The reset state meets the invariant. -/
def Obligations.ResetMeetsTheInvariant : Prop := StateInv State.reset

/-- Every transaction of the interface keeps the invariant, whatever bytes and keys the host gives. -/
def Obligations.TransactionsKeepTheInvariant : Prop := ∀ (op : Transaction) (s : State), StateInv s → StateInv (transact op s)

/-- No program and no cycle can tell apart two states that differ only by multiples of 4096 in PC, I and the stacked
return addresses: a step of one is matched by a step of the other, and they stay so related (the spec's own
inference in R26 and R29 from its D2, D3, D4). -/
def Obligations.AddressBitsAboveMemoryAreUnobservable : Prop :=
  ∀ s s' t : State, AlikeModuloMemory s s' → step s = .next t → ∃ t', step s' = .next t' ∧ AlikeModuloMemory t t'

/-- The keys are read-only to the engine, and the implementation parameters are fixed: no step changes either
(R11, R38; log 1). -/
def Obligations.NoStepChangesKeysOrParameters : Prop :=
  ∀ s t : State, step s = .next t → t.key = s.key ∧ t.cfg = s.cfg

/-- An instruction writes only the registers rule R23's table, the spec's own inference, names for it. -/
def Obligations.InstructionsWriteOnlyTheirRegisters : Prop :=
  ∀ (i : Instr) (s t : State) (r : Reg), exec i s = .next t → ¬ writesReg i r → t.readV r = s.readV r

/-- An instruction that rule R25's table, the spec's own inference, does not list leaves PC at A + 2, its value on entry. -/
def Obligations.OtherInstructionsLeavePc : Prop :=
  ∀ (i : Instr) (s t : State), exec i s = .next t → ¬ setsPc i → t.pc = s.pc

/-- An instruction stores to no byte but the ones rule R63's table, the spec's own inference, names for it, at I,
I + 1, …; 32 of the 34 store to none. -/
def Obligations.InstructionsStoreOnlyTheirBytes : Prop :=
  ∀ (i : Instr) (s t : State) (a : Nat), exec i s = .next t → ¬ storedBytes s.i.toNat (bytesStored i) (.byte a) →
    t.memRead a = s.memRead a

/-- The frame buffer is mutated only by clear and draw (R98). -/
def Obligations.OnlyClearAndDrawWriteTheFrameBuffer : Prop :=
  ∀ (i : Instr) (s t : State), exec i s = .next t → t.fb ≠ s.fb → i = .clear ∨ ∃ x y n, i = .draw x y n

/-- No instruction but load-index, add-index and font-address modifies I (R28; the spec's D26). -/
def Obligations.OnlyThreeInstructionsModifyIndex : Prop :=
  ∀ (i : Instr) (s t : State), exec i s = .next t → t.i ≠ s.i →
    (∃ nnn, i = .loadIndex nnn) ∨ (∃ x, i = .addIndex x) ∨ ∃ x, i = .fontAddress x

/-- The call stack is reached only by call and return, and only at its top: it stays, grows by the pushed PC, or loses
its top (R33). -/
def Obligations.OnlyCallAndReturnReachTheStack : Prop :=
  ∀ (i : Instr) (s t : State), exec i s = .next t → t.stack ≠ s.stack →
    ((∃ nnn, i = .call nnn) ∧ t.stack = s.pc :: s.stack) ∨ (i = .ret ∧ ∃ a, s.stack = a :: t.stack)

/-- The timers are written by no instruction but Fx15 and Fx18 (R34, R35). -/
def Obligations.OnlyTimerInstructionsWriteTimers : Prop :=
  ∀ (i : Instr) (s t : State), exec i s = .next t →
    (t.dt ≠ s.dt → ∃ x, i = .writeDelay x) ∧ (t.st ≠ s.st → ∃ x, i = .writeSound x)

/-- The core at a self-jump repeats it for as long as the host calls `cycle()`, changing nothing but the timers (R164;
the spec's D20). -/
def Obligations.SelfJumpRepeatsForever : Prop :=
  ∀ (s : State) (n : Nat), atSelfJump s → ∃ t, Sys2Proof.core.run n s = .next t ∧
    t.dt.toNat = s.dt.toNat - n ∧ t.st.toNat = s.st.toNat - n ∧
    changesOnly (fun p => p = .delay ∨ p = .sound) s t ∧ atSelfJump t

/-- An await-key with no key pressed waits for any number of cycles: PC is unchanged in net effect, the timers tick, and
nothing else changes (R137; the spec's D23 and D24). -/
def Obligations.AwaitKeyWaitsWhileNoKeyIsPressed : Prop :=
  ∀ (s : State) (x : Reg) (n : Nat), s.status = .running → s.fetchWord.toNat = 0xF00A + 0x100 * x.val →
    (∀ k, s.readKey k = false) → ∃ t, Sys2Proof.core.run n s = .next t ∧
      t.dt.toNat = s.dt.toNat - n ∧ t.st.toNat = s.st.toNat - n ∧
      changesOnly (fun p => p = .delay ∨ p = .sound) s t

/-! ## Display -/

/-- `clear` (R96): the exact word 0x00E0, every cell unlit, nothing else changed. -/
def Obligations.ClearUnlightsEveryCell : Prop :=
  onlyWord .clear 0x00E0 ∧
  ∀ s : State, ∃ t, exec .clear s = .next t ∧ (∀ col row, t.fb.cell col row = false) ∧ changesOnly anyCell s t

/-- `draw` (R97): a cell ends lit exactly when it was lit and has no sprite bit, or was unlit and has one; VF ends 1 if
some sprite bit met a lit cell and 0 otherwise; nothing else changes. The start position wraps, the sprite does not. The
position is read before VF is reset (the spec's D25), I is unchanged (D26), columns and rows are as in D29. -/
def Obligations.DrawXorsTheClippedSprite : Prop :=
  ∀ (x y : Reg) (n : Nibble), onlyWord (.draw x y n) (0xD000 + 0x100 * x.val + 0x10 * y.val + n.toNat) ∧
    ∀ s : State, ∃ t, exec (.draw x y n) s = .next t ∧
      (∀ col row, t.fb.cell col row = true ↔ (s.fb.cell col row = true ↔ ¬ spriteBit s x y n col row)) ∧
      ((∃ col row, spriteBit s x y n col row ∧ s.fb.cell col row = true) → t.readV vF = 1) ∧
      ((¬ ∃ col row, spriteBit s x y n col row ∧ s.fb.cell col row = true) → t.readV vF = 0) ∧
      changesOnly (fun p => anyCell p ∨ p = .reg vF) s t

/-- Drawing the same sprite twice at the same place restores the frame buffer; the second draw collides exactly when some
sprite bit on the display fell on a cell that was unlit before the first (from the pseudocode of R97; log 20). -/
def Obligations.DrawTwiceRestoresTheFrameBuffer : Prop :=
  ∀ (x y : Reg) (n : Nibble) (s t : State), x ≠ vF → y ≠ vF → exec (.draw x y n) s = .next t →
    ∃ u, exec (.draw x y n) t = .next u ∧ u.fb = s.fb ∧
      (u.readV vF = 1 ↔ ∃ col row, spriteBit s x y n col row ∧ s.fb.cell col row = false)

/-! ## Control flow -/

/-- `return` (R99): the top of the stack is popped into PC; on an empty stack StackUnderflow is taken, with PC back at A
and nothing changed but the status (the undone pre-increment is log 10, the record D35). -/
def Obligations.ReturnPopsOrUnderflows : Prop :=
  onlyWord .ret 0x00EE ∧
  (∀ (s : State) (top : Word) (rest : List Word), s.stack = top :: rest →
    ∃ t, exec .ret s = .next t ∧ t.pc = top ∧ t.stack = rest ∧ changesOnly (fun p => p = .pc ∨ p = .stack) s t) ∧
  (∀ s : State, s.stack = [] → ∃ t, exec .ret s = .next t ∧ t.pc = s.pc - 2 ∧
    t.status = .faulted ⟨.stackUnderflow, s.pc - 2, 0x00EE⟩ ∧ changesOnly (fun p => p = .pc ∨ p = .status) s t)

/-- `jump nnn` (R100): PC is nnn, nothing else changes. -/
def Obligations.JumpSetsPc : Prop :=
  ∀ nnn : Addr12, onlyWord (.jump nnn) (0x1000 + nnn.toNat) ∧
    ∀ s : State, ∃ t, exec (.jump nnn) s = .next t ∧ t.pc.toNat = nnn.toNat ∧ changesOnly (fun p => p = .pc) s t

/-- `call nnn` (R101): PC, which is A + 2, is pushed and PC is nnn; with STACK_DEPTH = N and N entries on the stack
StackOverflow is taken instead, with PC back at A and nothing changed but the status (the undone pre-increment is log 10,
the record D35). -/
def Obligations.CallPushesOrOverflows : Prop :=
  ∀ nnn : Addr12, onlyWord (.call nnn) (0x2000 + nnn.toNat) ∧
    (∀ s : State, (s.cfg.stackDepth = .unbounded ∨ ∃ N, s.cfg.stackDepth = .bounded N ∧ s.stack.length < N) →
      ∃ t, exec (.call nnn) s = .next t ∧ t.pc.toNat = nnn.toNat ∧ t.stack = s.pc :: s.stack ∧
        changesOnly (fun p => p = .pc ∨ p = .stack) s t) ∧
    (∀ s : State, s.cfg.stackDepth = .bounded s.stack.length →
      ∃ t w, exec (.call nnn) s = .next t ∧ t.pc = s.pc - 2 ∧ t.status = .faulted ⟨.stackOverflow, s.pc - 2, w⟩ ∧
        w.toNat = 0x2000 + nnn.toNat ∧ changesOnly (fun p => p = .pc ∨ p = .status) s t)

/-- `skip-eq-imm` and `skip-ne-imm` (R102, R103): PC advances by 2 more, modulo 65536 (the spec's
D3, log 12), exactly when the condition holds. -/
def Obligations.SkipOnImmediate : Prop :=
  ∀ (x : Reg) (nn : Byte), onlyWord (.skipEqImm x nn) (0x3000 + 0x100 * x.val + nn.toNat) ∧
    onlyWord (.skipNeImm x nn) (0x4000 + 0x100 * x.val + nn.toNat) ∧
    ∀ s : State,
      (∃ t, exec (.skipEqImm x nn) s = .next t ∧ changesOnly (fun p => p = .pc) s t ∧
        (s.readV x = nn → t.pc.toNat = (s.pc.toNat + 2) % 65536) ∧ (s.readV x ≠ nn → t.pc = s.pc)) ∧
      (∃ t, exec (.skipNeImm x nn) s = .next t ∧ changesOnly (fun p => p = .pc) s t ∧
        (s.readV x ≠ nn → t.pc.toNat = (s.pc.toNat + 2) % 65536) ∧ (s.readV x = nn → t.pc = s.pc))

/-- `skip-eq-reg` and `skip-ne-reg` (R104, R105): PC advances by 2 more (modulo 65536, the spec's D3, log 12) exactly
when the condition holds; the low nibble is 0, or any value under DECODE_5_9 = ignore_n (R83, D10; that the syntax keeps
it is log 4). -/
def Obligations.SkipOnRegisters : Prop :=
  ∀ (x y : Reg) (n : Nibble),
    (∀ d w, decode d w = .ok (.skipEqReg x y n) ↔
      w.toNat = 0x5000 + 0x100 * x.val + 0x10 * y.val + n.toNat ∧ (n = 0 ∨ d = .ignoreN)) ∧
    (∀ d w, decode d w = .ok (.skipNeReg x y n) ↔
      w.toNat = 0x9000 + 0x100 * x.val + 0x10 * y.val + n.toNat ∧ (n = 0 ∨ d = .ignoreN)) ∧
    ∀ s : State,
      (∃ t, exec (.skipEqReg x y n) s = .next t ∧ changesOnly (fun p => p = .pc) s t ∧
        (s.readV x = s.readV y → t.pc.toNat = (s.pc.toNat + 2) % 65536) ∧ (s.readV x ≠ s.readV y → t.pc = s.pc)) ∧
      (∃ t, exec (.skipNeReg x y n) s = .next t ∧ changesOnly (fun p => p = .pc) s t ∧
        (s.readV x ≠ s.readV y → t.pc.toNat = (s.pc.toNat + 2) % 65536) ∧ (s.readV x = s.readV y → t.pc = s.pc))

/-- `jump-offset nnn` (R106): PC is nnn + V0, never wrapping, whatever the x field holds. -/
def Obligations.JumpOffsetAddsV0 : Prop :=
  ∀ nnn : Addr12, onlyWord (.jumpOffset nnn) (0xB000 + nnn.toNat) ∧
    ∀ s : State, ∃ t, exec (.jumpOffset nnn) s = .next t ∧ t.pc.toNat = nnn.toNat + (s.readV 0).toNat ∧
      changesOnly (fun p => p = .pc) s t

/-! ## ALU and registers -/

/-- `load-imm` and `add-imm` (R110, R111): Vx is nn, or Vx + nn modulo 256; no flag effect, so only Vx changes. -/
def Obligations.ImmediateForms : Prop :=
  ∀ (x : Reg) (nn : Byte), onlyWord (.loadImm x nn) (0x6000 + 0x100 * x.val + nn.toNat) ∧
    onlyWord (.addImm x nn) (0x7000 + 0x100 * x.val + nn.toNat) ∧
    ∀ s : State,
      (∃ t, exec (.loadImm x nn) s = .next t ∧ t.readV x = nn ∧ changesOnly (fun p => p = .reg x) s t) ∧
      (∃ t, exec (.addImm x nn) s = .next t ∧ (t.readV x).toNat = ((s.readV x).toNat + nn.toNat) % 256 ∧
        changesOnly (fun p => p = .reg x) s t)

/-- `copy`, `or`, `and`, `xor` (R112 to R115): bit by bit in Vx; no flag, so only Vx changes. -/
def Obligations.CopyAndLogic : Prop :=
  ∀ x y : Reg, onlyWord (.copy x y) (0x8000 + 0x100 * x.val + 0x10 * y.val) ∧
    onlyWord (.orReg x y) (0x8001 + 0x100 * x.val + 0x10 * y.val) ∧
    onlyWord (.andReg x y) (0x8002 + 0x100 * x.val + 0x10 * y.val) ∧
    onlyWord (.xorReg x y) (0x8003 + 0x100 * x.val + 0x10 * y.val) ∧
    ∀ s : State,
      (∃ t, exec (.copy x y) s = .next t ∧ t.readV x = s.readV y ∧ changesOnly (fun p => p = .reg x) s t) ∧
      (∃ t, exec (.orReg x y) s = .next t ∧ changesOnly (fun p => p = .reg x) s t ∧
        ∀ k < 8, (t.readV x).getLsbD k = ((s.readV x).getLsbD k || (s.readV y).getLsbD k)) ∧
      (∃ t, exec (.andReg x y) s = .next t ∧ changesOnly (fun p => p = .reg x) s t ∧
        ∀ k < 8, (t.readV x).getLsbD k = ((s.readV x).getLsbD k && (s.readV y).getLsbD k)) ∧
      (∃ t, exec (.xorReg x y) s = .next t ∧ changesOnly (fun p => p = .reg x) s t ∧
        ∀ k < 8, (t.readV x).getLsbD k = ((s.readV x).getLsbD k ^^ (s.readV y).getLsbD k))

/-- `add-reg` (R116), both settings of ALU_VF_ALIAS: Vx is the sum modulo 256; VF is the carry, unless x = F, when the
sum overwrites it; only Vx and VF change. -/
def Obligations.AddRegSetsSumAndCarry : Prop :=
  ∀ x y : Reg, onlyWord (.addReg x y) (0x8004 + 0x100 * x.val + 0x10 * y.val) ∧
    ∀ s : State, ∃ t, exec (.addReg x y) s = .next t ∧
      (t.readV x).toNat = ((s.readV x).toNat + (s.readV y).toNat) % 256 ∧
      (x ≠ vF → (t.readV vF).toNat = if (s.readV x).toNat + (s.readV y).toNat > 255 then 1 else 0) ∧
      changesOnly (fun p => p = .reg x ∨ p = .reg vF) s t

/-- `sub` and `subn` (R117, R119): with a, b the operands read before any write (latched), VF is 1 iff no borrow and Vx
is the difference modulo 256; under sequential the result is computed from the registers after VF is written. When
x = F the result overwrites the flag. Only Vx and VF change. -/
def Obligations.SubtractionsSetDifferenceAndNoBorrow : Prop :=
  ∀ x y : Reg, onlyWord (.sub x y) (0x8005 + 0x100 * x.val + 0x10 * y.val) ∧
    onlyWord (.subn x y) (0x8007 + 0x100 * x.val + 0x10 * y.val) ∧
    ∀ (s : State) (a b f g : Nat), a = (s.readV x).toNat → b = (s.readV y).toNat →
      f = (if a ≥ b then 1 else 0) → g = (if b ≥ a then 1 else 0) →
      (∃ t, exec (.sub x y) s = .next t ∧ changesOnly (fun p => p = .reg x ∨ p = .reg vF) s t ∧
        (x ≠ vF → (t.readV vF).toNat = f) ∧
        (s.cfg.aluVfAlias = .latched → (t.readV x).toNat = (256 + a - b) % 256) ∧
        (s.cfg.aluVfAlias = .sequential → (t.readV x).toNat =
          (256 + (if x = vF then f else a) - (if y = vF then f else b)) % 256)) ∧
      (∃ t, exec (.subn x y) s = .next t ∧ changesOnly (fun p => p = .reg x ∨ p = .reg vF) s t ∧
        (x ≠ vF → (t.readV vF).toNat = g) ∧
        (s.cfg.aluVfAlias = .latched → (t.readV x).toNat = (256 + b - a) % 256) ∧
        (s.cfg.aluVfAlias = .sequential → (t.readV x).toNat =
          (256 + (if y = vF then g else b) - (if x = vF then g else a)) % 256))

/-- `shift-right` and `shift-left` (R118, R120): VF is the bit shifted out and Vx is Vx ÷ 2, or Vx × 2 modulo 256; Vy is
not read; when x = F the result, of the old VF (latched) or of the flag just written (sequential), overwrites it. -/
def Obligations.ShiftsMoveOneBitIntoVF : Prop :=
  ∀ x y : Reg, onlyWord (.shiftRight x y) (0x8006 + 0x100 * x.val + 0x10 * y.val) ∧
    onlyWord (.shiftLeft x y) (0x800E + 0x100 * x.val + 0x10 * y.val) ∧
    ∀ (s : State) (a : Nat), a = (s.readV x).toNat →
      (∃ t, exec (.shiftRight x y) s = .next t ∧ changesOnly (fun p => p = .reg x ∨ p = .reg vF) s t ∧
        (x ≠ vF → (t.readV vF).toNat = a % 2) ∧
        (x ≠ vF ∨ s.cfg.aluVfAlias = .latched → (t.readV x).toNat = a / 2) ∧
        (x = vF → s.cfg.aluVfAlias = .sequential → (t.readV x).toNat = a % 2 / 2)) ∧
      (∃ t, exec (.shiftLeft x y) s = .next t ∧ changesOnly (fun p => p = .reg x ∨ p = .reg vF) s t ∧
        (x ≠ vF → (t.readV vF).toNat = a / 128) ∧
        (x ≠ vF ∨ s.cfg.aluVfAlias = .latched → (t.readV x).toNat = a * 2 % 256) ∧
        (x = vF → s.cfg.aluVfAlias = .sequential → (t.readV x).toNat = a / 128 * 2))

/-- When x ≠ F and y ≠ F the two settings of ALU_VF_ALIAS give the same state (R108; the spec's D9). -/
def Obligations.AliasSettingsAgreeAwayFromVF : Prop :=
  ∀ (x y : Reg) (i : Instr) (s : State), x ≠ vF → y ≠ vF →
    i ∈ [Instr.addReg x y, .sub x y, .subn x y, .shiftRight x y, .shiftLeft x y] →
    ∃ t, exec i { s with cfg := { s.cfg with aluVfAlias := .latched } } = .next t ∧
      exec i { s with cfg := { s.cfg with aluVfAlias := .sequential } } =
        .next { t with cfg := { s.cfg with aluVfAlias := .sequential } }

/-- `random-and` (R121): Vx is the drawn byte masked by nn, and the draw is used up, so that the next execution draws
another. How the provider stands in the state is the model's choice (log 7); the free byte has no value in the model. -/
def Obligations.RandomAndMasksAFreshByte : Prop :=
  ∀ (x : Reg) (nn : Byte), onlyWord (.randomAnd x nn) (0xC000 + 0x100 * x.val + nn.toNat) ∧
    ∀ s : State, ∃ t, exec (.randomAnd x nn) s = .next t ∧
      (∀ b rest, s.provider = b :: rest → t.readV x = b &&& nn ∧ t.provider = rest ∧ t.drawn = s.drawn) ∧
      (s.provider = [] → t.readV x = Config.randByte s.drawn &&& nn ∧ t.provider = [] ∧ t.drawn = s.drawn + 1) ∧
      changesOnly (fun p => p = .reg x ∨ p = .provider ∨ p = .drawn) s t

/-! ## Index register and memory -/

/-- `load-index`, `add-index`, `font-address` (R124 to R126): I is nnn, I + Vx modulo 65536 (the spec's D4, log 12), or
0x50 + 5 × Vx; no flag, so only I changes. -/
def Obligations.IndexInstructionsSetI : Prop :=
  (∀ nnn : Addr12, onlyWord (.loadIndex nnn) (0xA000 + nnn.toNat) ∧
    ∀ s : State, ∃ t, exec (.loadIndex nnn) s = .next t ∧ t.i.toNat = nnn.toNat ∧ changesOnly (fun p => p = .index) s t) ∧
  (∀ x : Reg, onlyWord (.addIndex x) (0xF01E + 0x100 * x.val) ∧ onlyWord (.fontAddress x) (0xF029 + 0x100 * x.val) ∧
    ∀ s : State,
      (∃ t, exec (.addIndex x) s = .next t ∧ t.i.toNat = (s.i.toNat + (s.readV x).toNat) % 65536 ∧
        changesOnly (fun p => p = .index) s t) ∧
      (∃ t, exec (.fontAddress x) s = .next t ∧ t.i.toNat = 0x50 + (s.readV x).toNat * 5 ∧
        changesOnly (fun p => p = .index) s t))

/-- Glyph k stands at 0x50 + 5k .. 0x50 + 5k + 4 after construction, and font-address with Vx = k points I at its first
byte, for every glyph table (R67). -/
def Obligations.FontAddressPointsAtItsGlyph : Prop :=
  ∀ (cfg : Config) (k j : Nat) (hk : k < 16) (hj : j < 5),
    (State.construct cfg).memRead (0x50 + 5 * k + j) = cfg.glyphTable[5 * k + j]'(by omega) ∧
    ∀ (x : Reg) (s : State), (s.readV x).toNat = k → ∃ t, exec (.fontAddress x) s = .next t ∧ t.i.toNat = 0x50 + 5 * k

/-- `bcd-store` (R127): the hundreds, tens and ones digits of Vx at I, I + 1, I + 2, each address modulo 4096 (the
spec's D2, log 12); no other byte and no other state changes (I by the spec's D26, log 17). -/
def Obligations.BcdStoreWritesThreeDigits : Prop :=
  ∀ x : Reg, onlyWord (.bcdStore x) (0xF033 + 0x100 * x.val) ∧
    ∀ s : State, ∃ t, exec (.bcdStore x) s = .next t ∧
      (t.memRead s.i.toNat).toNat = (s.readV x).toNat / 100 ∧
      (t.memRead (s.i.toNat + 1)).toNat = (s.readV x).toNat / 10 % 10 ∧
      (t.memRead (s.i.toNat + 2)).toNat = (s.readV x).toNat % 10 ∧
      changesOnly (storedBytes s.i.toNat 3) s t

/-- `store-block` (R128): V0..Vx at I .. I + x, each address modulo 4096 (the spec's D2, log 12); no other byte and no other
state changes (I by the spec's D26, log 17). -/
def Obligations.StoreBlockWritesV0ToVx : Prop :=
  ∀ x : Reg, onlyWord (.storeBlock x) (0xF055 + 0x100 * x.val) ∧
    ∀ s : State, ∃ t, exec (.storeBlock x) s = .next t ∧ (∀ k ≤ x, t.memRead (s.i.toNat + k.val) = s.readV k) ∧
      changesOnly (storedBytes s.i.toNat (x.val + 1)) s t

/-- `load-block` (R129): V0..Vx from I .. I + x (modulo 4096, the spec's D2, log 12); the registers above x, memory and I (the
spec's D26, log 17) are unchanged. -/
def Obligations.LoadBlockReadsV0ToVx : Prop :=
  ∀ x : Reg, onlyWord (.loadBlock x) (0xF065 + 0x100 * x.val) ∧
    ∀ s : State, ∃ t, exec (.loadBlock x) s = .next t ∧ (∀ k ≤ x, t.readV k = s.memRead (s.i.toNat + k.val)) ∧
      changesOnly (fun p => ∃ k ≤ x, p = .reg k) s t

/-- Storing V0..Vx and loading them into a zeroed register file reproduces the original values (R129, §8's property;
the spec's D26). -/
def Obligations.StoreBlockThenLoadBlockIsIdentity : Prop :=
  ∀ (x : Reg) (s t : State), exec (.storeBlock x) s = .next t →
    ∃ u, exec (.loadBlock x) { t with v := Vector.replicate 16 0 } = .next u ∧
      (∀ k ≤ x, u.readV k = s.readV k) ∧ ∀ k, x < k → u.readV k = 0

/-! ## Timers and keys -/

/-- `read-delay`, `write-delay`, `write-sound` (R131 to R133): the value moves between Vx and the timer, nothing else
changes; after the cycle's tick the timer is one below it, floored at 0 (for Fx15 and Fx18 the spec's own inference from
its D24, log 18). -/
def Obligations.TimerInstructionsMoveVx : Prop :=
  ∀ x : Reg, onlyWord (.readDelay x) (0xF007 + 0x100 * x.val) ∧ onlyWord (.writeDelay x) (0xF015 + 0x100 * x.val) ∧
    onlyWord (.writeSound x) (0xF018 + 0x100 * x.val) ∧
    (∀ s : State,
      (∃ t, exec (.readDelay x) s = .next t ∧ t.readV x = s.dt ∧ changesOnly (fun p => p = .reg x) s t) ∧
      (∃ t, exec (.writeDelay x) s = .next t ∧ t.dt = s.readV x ∧ changesOnly (fun p => p = .delay) s t) ∧
      (∃ t, exec (.writeSound x) s = .next t ∧ t.st = s.readV x ∧ changesOnly (fun p => p = .sound) s t)) ∧
    ∀ s : State, s.status = .running →
      (s.fetchWord.toNat = 0xF007 + 0x100 * x.val →
        ∃ t, step s = .next t ∧ t.readV x = s.dt ∧ t.dt.toNat = s.dt.toNat - 1) ∧
      (s.fetchWord.toNat = 0xF015 + 0x100 * x.val → ∃ t, step s = .next t ∧ t.dt.toNat = (s.readV x).toNat - 1) ∧
      (s.fetchWord.toNat = 0xF018 + 0x100 * x.val → ∃ t, step s = .next t ∧ t.st.toNat = (s.readV x).toNat - 1)

/-- `skip-key-pressed` and `skip-key-released` (R134 to R136): the key Vx selects decides the skip; a value of 16 or
more under KEY_INDEX_POLICY = fault takes KeyIndexRange, with PC back at A and nothing changed but the status (the spec's
D8, D3; log 10). -/
def Obligations.KeySkipsTestTheSelectedKey : Prop :=
  ∀ x : Reg, onlyWord (.skipKeyPressed x) (0xE09E + 0x100 * x.val) ∧
    onlyWord (.skipKeyReleased x) (0xE0A1 + 0x100 * x.val) ∧
    (∀ (s : State) (p : Bool), selectsKey s (s.readV x) p →
      (∃ t, exec (.skipKeyPressed x) s = .next t ∧ changesOnly (fun q => q = .pc) s t ∧
        t.pc.toNat = if p then (s.pc.toNat + 2) % 65536 else s.pc.toNat) ∧
      (∃ t, exec (.skipKeyReleased x) s = .next t ∧ changesOnly (fun q => q = .pc) s t ∧
        t.pc.toNat = if p then s.pc.toNat else (s.pc.toNat + 2) % 65536)) ∧
    (∀ s : State, 16 ≤ (s.readV x).toNat → s.cfg.keyIndexPolicy = .fault →
      (∃ t w, exec (.skipKeyPressed x) s = .next t ∧ t.pc = s.pc - 2 ∧
        t.status = .faulted ⟨.keyIndexRange, s.pc - 2, w⟩ ∧ w.toNat = 0xE09E + 0x100 * x.val ∧
        changesOnly (fun q => q = .pc ∨ q = .status) s t) ∧
      (∃ t w, exec (.skipKeyReleased x) s = .next t ∧ t.pc = s.pc - 2 ∧
        t.status = .faulted ⟨.keyIndexRange, s.pc - 2, w⟩ ∧ w.toNat = 0xE0A1 + 0x100 * x.val ∧
        changesOnly (fun q => q = .pc ∨ q = .status) s t))

/-- `await-key` (R137): with a key pressed Vx is the lowest-numbered one; with none pressed PC goes back by 2; nothing
else changes (the level test is the spec's D23, the reduction D3). -/
def Obligations.AwaitKeyTakesTheLowestPressedKey : Prop :=
  ∀ x : Reg, onlyWord (.awaitKey x) (0xF00A + 0x100 * x.val) ∧
    (∀ (s : State) (k : Fin 16), s.readKey k = true → (∀ j < k, s.readKey j = false) →
      ∃ t, exec (.awaitKey x) s = .next t ∧ (t.readV x).toNat = k.val ∧ changesOnly (fun p => p = .reg x) s t) ∧
    (∀ s : State, (∀ k, s.readKey k = false) →
      ∃ t, exec (.awaitKey x) s = .next t ∧ t.pc.toNat = (s.pc.toNat + 65534) % 65536 ∧
        changesOnly (fun p => p = .pc) s t)

/-! ## Reset and the host interface -/

/-- `construct()` gives the reset values of rule R44, whatever the state was (R157; I = 0 is the spec's D13, log 8), and
leaves the parameters (log 1) and the random-byte provider outside the core (log 7) as they were. -/
def Obligations.ConstructGivesTheResetState : Prop :=
  ∀ s t : State, t = reconstruct s →
    (∀ a, a < 0x50 ∨ 0xA0 ≤ a ∧ a ≤ 0xFFF → t.memRead a = 0) ∧
    (∀ (k : Nat) (hk : k < 80), t.memRead (0x50 + k) = s.cfg.glyphTable[k]) ∧
    (∀ r, t.readV r = 0) ∧ t.i = 0 ∧ t.pc = 0x200 ∧ t.stack = [] ∧ t.dt = 0 ∧ t.st = 0 ∧
    (∀ col row, t.fb.cell col row = false) ∧ (∀ k, t.readKey k = false) ∧ t.status = .running ∧
    t.cfg = s.cfg ∧ t.provider = s.provider ∧ t.drawn = s.drawn

/-- `load` (R47): the bytes stand at base, base + 1, … and nothing else changes, or LoadRange (the spec's D17). -/
def Obligations.LoadWritesTheBytesOrFails : Prop :=
  ∀ (s : State) (bytes : List Byte) (base : Nat),
    (base + bytes.length ≤ 4096 → ∃ t, load bytes base s = .ok t ∧
      (∀ (k : Nat) (hk : k < bytes.length), t.memRead (base + k) = bytes[k]) ∧
      changesOnly (storedBytes base bytes.length) s t) ∧
    (4096 < base + bytes.length → load bytes base s = .error .loadRange)

/-- `setKey` (R48): the key is set to `pressed` and nothing else changes, or InvalidKeyIndex (the
spec's D18). -/
def Obligations.SetKeySetsOneKeyOrFails : Prop :=
  ∀ (s : State) (pressed : Bool),
    (∀ k : Fin 16, ∃ t, setKey (k.val : Int) pressed s = .ok t ∧ t.readKey k = pressed ∧
      changesOnly (fun p => p = .key k) s t) ∧
    (∀ index : Int, index < 0 ∨ 15 < index → setKey index pressed s = .error .invalidKeyIndex)
end

