-- ==== Sys2Proof/Laws/Decode.lean ====
section
/-! SUPPORT. Fields of an encoded word, words as numbers, and that no two rows of the opcode table overlap. -/

namespace Sys2Proof

@[simp] theorem regOf_regBits (r : Reg) : regOf (regBits r) = r := by
  simp [regOf, regBits]

@[simp] theorem regBits_regOf (b : Nibble) : regBits (regOf b) = b := by
  simp [regOf, regBits]

theorem regBits_toNat (r : Reg) : (regBits r).toNat = r.val := by
  simp [regBits]

/-! ## Words as numbers -/

theorem formatNNN_toNat (g : Nibble) (nnn : Addr12) :
    (formatNNN g nnn).toNat = 0x1000 * g.toNat + nnn.toNat := by
  rw [formatNNN, BitVec.toNat_append, ← Nat.shiftLeft_add_eq_or_of_lt nnn.isLt, Nat.shiftLeft_eq]; omega

theorem formatXNN_toNat (g : Nibble) (x : Reg) (nn : Byte) :
    (formatXNN g x nn).toNat = 0x1000 * g.toNat + 0x100 * x.val + nn.toNat := by
  rw [formatXNN, BitVec.toNat_append, ← Nat.shiftLeft_add_eq_or_of_lt (BitVec.isLt _), BitVec.toNat_append,
    ← Nat.shiftLeft_add_eq_or_of_lt nn.isLt, regBits_toNat, Nat.shiftLeft_eq, Nat.shiftLeft_eq]; omega

theorem formatXYN_toNat (g : Nibble) (x y : Reg) (n : Nibble) :
    (formatXYN g x y n).toNat = 0x1000 * g.toNat + 0x100 * x.val + 0x10 * y.val + n.toNat := by
  rw [formatXYN, BitVec.toNat_append, ← Nat.shiftLeft_add_eq_or_of_lt (BitVec.isLt _), BitVec.toNat_append,
    ← Nat.shiftLeft_add_eq_or_of_lt (BitVec.isLt _), BitVec.toNat_append, ← Nat.shiftLeft_add_eq_or_of_lt n.isLt,
    regBits_toNat, regBits_toNat, Nat.shiftLeft_eq, Nat.shiftLeft_eq, Nat.shiftLeft_eq]; omega

theorem fieldG_toNat (w : Word) : (fieldG w).toNat = w.toNat / 0x1000 := by
  simp [fieldG, BitVec.extractLsb'_toNat, Nat.shiftRight_eq_div_pow]; omega

theorem fieldX_toNat (w : Word) : (fieldX w).toNat = w.toNat / 0x100 % 0x10 := by
  simp [fieldX, BitVec.extractLsb'_toNat, Nat.shiftRight_eq_div_pow]

theorem fieldY_toNat (w : Word) : (fieldY w).toNat = w.toNat / 0x10 % 0x10 := by
  simp [fieldY, BitVec.extractLsb'_toNat, Nat.shiftRight_eq_div_pow]

theorem fieldN_toNat (w : Word) : (fieldN w).toNat = w.toNat % 0x10 := by
  simp [fieldN, BitVec.extractLsb'_toNat]

theorem fieldNN_toNat (w : Word) : (fieldNN w).toNat = w.toNat % 0x100 := by
  simp [fieldNN, BitVec.extractLsb'_toNat]

theorem fieldNNN_toNat (w : Word) : (fieldNNN w).toNat = w.toNat % 0x1000 := by
  simp [fieldNNN, BitVec.extractLsb'_toNat]

/-! ## Fields of an encoded word -/

@[simp] theorem fieldG_formatNNN (g : Nibble) (nnn : Addr12) : fieldG (formatNNN g nnn) = g :=
  BitVec.eq_of_toNat_eq (by rw [fieldG_toNat, formatNNN_toNat]; omega)

@[simp] theorem fieldNNN_formatNNN (g : Nibble) (nnn : Addr12) : fieldNNN (formatNNN g nnn) = nnn :=
  BitVec.eq_of_toNat_eq (by rw [fieldNNN_toNat, formatNNN_toNat]; omega)

@[simp] theorem fieldG_formatXNN (g : Nibble) (x : Reg) (nn : Byte) : fieldG (formatXNN g x nn) = g :=
  BitVec.eq_of_toNat_eq (by rw [fieldG_toNat, formatXNN_toNat]; omega)

@[simp] theorem fieldX_formatXNN (g : Nibble) (x : Reg) (nn : Byte) : fieldX (formatXNN g x nn) = regBits x :=
  BitVec.eq_of_toNat_eq (by rw [fieldX_toNat, formatXNN_toNat, regBits_toNat]; omega)

@[simp] theorem fieldNN_formatXNN (g : Nibble) (x : Reg) (nn : Byte) : fieldNN (formatXNN g x nn) = nn :=
  BitVec.eq_of_toNat_eq (by rw [fieldNN_toNat, formatXNN_toNat]; omega)

@[simp] theorem fieldG_formatXYN (g : Nibble) (x y : Reg) (n : Nibble) : fieldG (formatXYN g x y n) = g :=
  BitVec.eq_of_toNat_eq (by rw [fieldG_toNat, formatXYN_toNat]; omega)

@[simp] theorem fieldX_formatXYN (g : Nibble) (x y : Reg) (n : Nibble) : fieldX (formatXYN g x y n) = regBits x :=
  BitVec.eq_of_toNat_eq (by rw [fieldX_toNat, formatXYN_toNat, regBits_toNat]; omega)

@[simp] theorem fieldY_formatXYN (g : Nibble) (x y : Reg) (n : Nibble) : fieldY (formatXYN g x y n) = regBits y :=
  BitVec.eq_of_toNat_eq (by rw [fieldY_toNat, formatXYN_toNat, regBits_toNat]; omega)

@[simp] theorem fieldN_formatXYN (g : Nibble) (x y : Reg) (n : Nibble) : fieldN (formatXYN g x y n) = n :=
  BitVec.eq_of_toNat_eq (by rw [fieldN_toNat, formatXYN_toNat]; omega)

/-! ## Bytes of a word -/

@[simp] theorem wordOfBytes_split (w : Word) : wordOfBytes (highByte w) (lowByte w) = w := by
  apply BitVec.eq_of_toNat_eq
  rw [wordOfBytes, BitVec.toNat_append, ← Nat.shiftLeft_add_eq_or_of_lt (BitVec.isLt _), Nat.shiftLeft_eq]
  simp [highByte, lowByte, BitVec.extractLsb'_toNat, Nat.shiftRight_eq_div_pow]; omega

/-! ## The masks of the opcode table -/

theorem and_maskG (w : Word) : w &&& 0xF000#16 = fieldG w ++ 0x000#12 := by
  refine BitVec.eq_of_getLsbD_eq fun i hi => ?_
  rw [BitVec.getLsbD_append, fieldG, BitVec.getLsbD_extractLsb']
  interval_cases i <;> simp

theorem and_maskGN (w : Word) : w &&& 0xF00F#16 = fieldG w ++ (0x00#8 ++ fieldN w) := by
  refine BitVec.eq_of_getLsbD_eq fun i hi => ?_
  rw [BitVec.getLsbD_append, BitVec.getLsbD_append, fieldG, fieldN, BitVec.getLsbD_extractLsb', BitVec.getLsbD_extractLsb']
  interval_cases i <;> simp

theorem and_maskGNN (w : Word) : w &&& 0xF0FF#16 = fieldG w ++ (0x0#4 ++ fieldNN w) := by
  refine BitVec.eq_of_getLsbD_eq fun i hi => ?_
  rw [BitVec.getLsbD_append, BitVec.getLsbD_append, fieldG, fieldNN, BitVec.getLsbD_extractLsb', BitVec.getLsbD_extractLsb']
  interval_cases i <;> simp

end Sys2Proof
end

