-- ==== Sys2Proof/Laws/State.lean ====
section
/-! SUPPORT. What each named update does to each field of State, once each, so that no proof unfolds a record
update; and what it does to the reads of a register, a memory byte and a key. -/

namespace Sys2Proof.Machine

/-! ## memWrite -/

@[simp] theorem State.memWrite_mem (s : State) (a : Nat) (b : Byte) : (s.memWrite a b).mem = Memory.write s.cfg.glyphTable (location a) b s.mem := rfl
@[simp] theorem State.memWrite_v (s : State) (a : Nat) (b : Byte) : (s.memWrite a b).v = s.v := rfl
@[simp] theorem State.memWrite_i (s : State) (a : Nat) (b : Byte) : (s.memWrite a b).i = s.i := rfl
@[simp] theorem State.memWrite_pc (s : State) (a : Nat) (b : Byte) : (s.memWrite a b).pc = s.pc := rfl
@[simp] theorem State.memWrite_stack (s : State) (a : Nat) (b : Byte) : (s.memWrite a b).stack = s.stack := rfl
@[simp] theorem State.memWrite_dt (s : State) (a : Nat) (b : Byte) : (s.memWrite a b).dt = s.dt := rfl
@[simp] theorem State.memWrite_st (s : State) (a : Nat) (b : Byte) : (s.memWrite a b).st = s.st := rfl
@[simp] theorem State.memWrite_fb (s : State) (a : Nat) (b : Byte) : (s.memWrite a b).fb = s.fb := rfl
@[simp] theorem State.memWrite_key (s : State) (a : Nat) (b : Byte) : (s.memWrite a b).key = s.key := rfl
@[simp] theorem State.memWrite_status (s : State) (a : Nat) (b : Byte) : (s.memWrite a b).status = s.status := rfl
@[simp] theorem State.memWrite_cfg (s : State) (a : Nat) (b : Byte) : (s.memWrite a b).cfg = s.cfg := rfl
@[simp] theorem State.memWrite_provider (s : State) (a : Nat) (b : Byte) : (s.memWrite a b).provider = s.provider := rfl
@[simp] theorem State.memWrite_drawn (s : State) (a : Nat) (b : Byte) : (s.memWrite a b).drawn = s.drawn := rfl

@[simp] theorem State.memWrite_readV (s : State) (a : Nat) (b : Byte) (r : Reg) : (s.memWrite a b).readV r = s.readV r := rfl
@[simp] theorem State.memWrite_readKey (s : State) (a : Nat) (b : Byte) (k : Fin 16) : (s.memWrite a b).readKey k = s.readKey k := rfl

/-! ## writeV -/

@[simp] theorem State.writeV_mem (s : State) (x : Reg) (b : Byte) : (s.writeV x b).mem = s.mem := rfl
@[simp] theorem State.writeV_v (s : State) (x : Reg) (b : Byte) : (s.writeV x b).v = s.v.set x.val b := rfl
@[simp] theorem State.writeV_i (s : State) (x : Reg) (b : Byte) : (s.writeV x b).i = s.i := rfl
@[simp] theorem State.writeV_pc (s : State) (x : Reg) (b : Byte) : (s.writeV x b).pc = s.pc := rfl
@[simp] theorem State.writeV_stack (s : State) (x : Reg) (b : Byte) : (s.writeV x b).stack = s.stack := rfl
@[simp] theorem State.writeV_dt (s : State) (x : Reg) (b : Byte) : (s.writeV x b).dt = s.dt := rfl
@[simp] theorem State.writeV_st (s : State) (x : Reg) (b : Byte) : (s.writeV x b).st = s.st := rfl
@[simp] theorem State.writeV_fb (s : State) (x : Reg) (b : Byte) : (s.writeV x b).fb = s.fb := rfl
@[simp] theorem State.writeV_key (s : State) (x : Reg) (b : Byte) : (s.writeV x b).key = s.key := rfl
@[simp] theorem State.writeV_status (s : State) (x : Reg) (b : Byte) : (s.writeV x b).status = s.status := rfl
@[simp] theorem State.writeV_cfg (s : State) (x : Reg) (b : Byte) : (s.writeV x b).cfg = s.cfg := rfl
@[simp] theorem State.writeV_provider (s : State) (x : Reg) (b : Byte) : (s.writeV x b).provider = s.provider := rfl
@[simp] theorem State.writeV_drawn (s : State) (x : Reg) (b : Byte) : (s.writeV x b).drawn = s.drawn := rfl

@[simp] theorem State.writeV_memRead (s : State) (x : Reg) (b : Byte) (k : Nat) : (s.writeV x b).memRead k = s.memRead k := rfl
@[simp] theorem State.writeV_readKey (s : State) (x : Reg) (b : Byte) (k : Fin 16) : (s.writeV x b).readKey k = s.readKey k := rfl

/-! ## loadRegs -/

@[simp] theorem State.loadRegs_mem (s : State) (x : Reg) (a : Nat) : (s.loadRegs x a).mem = s.mem := by rw [State.loadRegs]
@[simp] theorem State.loadRegs_v (s : State) (x : Reg) (a : Nat) : (s.loadRegs x a).v = Vector.ofFn fun k : Reg => if k ≤ x then s.memRead (a + k.val) else s.readV k := rfl
@[simp] theorem State.loadRegs_i (s : State) (x : Reg) (a : Nat) : (s.loadRegs x a).i = s.i := by rw [State.loadRegs]
@[simp] theorem State.loadRegs_pc (s : State) (x : Reg) (a : Nat) : (s.loadRegs x a).pc = s.pc := by rw [State.loadRegs]
@[simp] theorem State.loadRegs_stack (s : State) (x : Reg) (a : Nat) : (s.loadRegs x a).stack = s.stack := by rw [State.loadRegs]
@[simp] theorem State.loadRegs_dt (s : State) (x : Reg) (a : Nat) : (s.loadRegs x a).dt = s.dt := by rw [State.loadRegs]
@[simp] theorem State.loadRegs_st (s : State) (x : Reg) (a : Nat) : (s.loadRegs x a).st = s.st := by rw [State.loadRegs]
@[simp] theorem State.loadRegs_fb (s : State) (x : Reg) (a : Nat) : (s.loadRegs x a).fb = s.fb := by rw [State.loadRegs]
@[simp] theorem State.loadRegs_key (s : State) (x : Reg) (a : Nat) : (s.loadRegs x a).key = s.key := by rw [State.loadRegs]
@[simp] theorem State.loadRegs_status (s : State) (x : Reg) (a : Nat) : (s.loadRegs x a).status = s.status := by rw [State.loadRegs]
@[simp] theorem State.loadRegs_cfg (s : State) (x : Reg) (a : Nat) : (s.loadRegs x a).cfg = s.cfg := by rw [State.loadRegs]
@[simp] theorem State.loadRegs_provider (s : State) (x : Reg) (a : Nat) : (s.loadRegs x a).provider = s.provider := by rw [State.loadRegs]
@[simp] theorem State.loadRegs_drawn (s : State) (x : Reg) (a : Nat) : (s.loadRegs x a).drawn = s.drawn := by rw [State.loadRegs]

@[simp] theorem State.loadRegs_memRead (s : State) (x : Reg) (a : Nat) (k : Nat) : (s.loadRegs x a).memRead k = s.memRead k := by
  simp [State.memRead]
@[simp] theorem State.loadRegs_readKey (s : State) (x : Reg) (a : Nat) (k : Fin 16) : (s.loadRegs x a).readKey k = s.readKey k := by
  simp [State.readKey]

/-! ## writePc -/

@[simp] theorem State.writePc_mem (s : State) (a : Word) : (s.writePc a).mem = s.mem := rfl
@[simp] theorem State.writePc_v (s : State) (a : Word) : (s.writePc a).v = s.v := rfl
@[simp] theorem State.writePc_i (s : State) (a : Word) : (s.writePc a).i = s.i := rfl
@[simp] theorem State.writePc_pc (s : State) (a : Word) : (s.writePc a).pc = a := rfl
@[simp] theorem State.writePc_stack (s : State) (a : Word) : (s.writePc a).stack = s.stack := rfl
@[simp] theorem State.writePc_dt (s : State) (a : Word) : (s.writePc a).dt = s.dt := rfl
@[simp] theorem State.writePc_st (s : State) (a : Word) : (s.writePc a).st = s.st := rfl
@[simp] theorem State.writePc_fb (s : State) (a : Word) : (s.writePc a).fb = s.fb := rfl
@[simp] theorem State.writePc_key (s : State) (a : Word) : (s.writePc a).key = s.key := rfl
@[simp] theorem State.writePc_status (s : State) (a : Word) : (s.writePc a).status = s.status := rfl
@[simp] theorem State.writePc_cfg (s : State) (a : Word) : (s.writePc a).cfg = s.cfg := rfl
@[simp] theorem State.writePc_provider (s : State) (a : Word) : (s.writePc a).provider = s.provider := rfl
@[simp] theorem State.writePc_drawn (s : State) (a : Word) : (s.writePc a).drawn = s.drawn := rfl

@[simp] theorem State.writePc_memRead (s : State) (a : Word) (k : Nat) : (s.writePc a).memRead k = s.memRead k := rfl
@[simp] theorem State.writePc_readV (s : State) (a : Word) (r : Reg) : (s.writePc a).readV r = s.readV r := rfl
@[simp] theorem State.writePc_readKey (s : State) (a : Word) (k : Fin 16) : (s.writePc a).readKey k = s.readKey k := rfl

/-! ## advancePc -/

@[simp] theorem State.advancePc_mem (s : State) : (s.advancePc).mem = s.mem := rfl
@[simp] theorem State.advancePc_v (s : State) : (s.advancePc).v = s.v := rfl
@[simp] theorem State.advancePc_i (s : State) : (s.advancePc).i = s.i := rfl
@[simp] theorem State.advancePc_pc (s : State) : (s.advancePc).pc = s.pc + 2#16 := rfl
@[simp] theorem State.advancePc_stack (s : State) : (s.advancePc).stack = s.stack := rfl
@[simp] theorem State.advancePc_dt (s : State) : (s.advancePc).dt = s.dt := rfl
@[simp] theorem State.advancePc_st (s : State) : (s.advancePc).st = s.st := rfl
@[simp] theorem State.advancePc_fb (s : State) : (s.advancePc).fb = s.fb := rfl
@[simp] theorem State.advancePc_key (s : State) : (s.advancePc).key = s.key := rfl
@[simp] theorem State.advancePc_status (s : State) : (s.advancePc).status = s.status := rfl
@[simp] theorem State.advancePc_cfg (s : State) : (s.advancePc).cfg = s.cfg := rfl
@[simp] theorem State.advancePc_provider (s : State) : (s.advancePc).provider = s.provider := rfl
@[simp] theorem State.advancePc_drawn (s : State) : (s.advancePc).drawn = s.drawn := rfl

@[simp] theorem State.advancePc_memRead (s : State) (k : Nat) : (s.advancePc).memRead k = s.memRead k := rfl
@[simp] theorem State.advancePc_readV (s : State) (r : Reg) : (s.advancePc).readV r = s.readV r := rfl
@[simp] theorem State.advancePc_readKey (s : State) (k : Fin 16) : (s.advancePc).readKey k = s.readKey k := rfl

/-! ## rewindPc -/

@[simp] theorem State.rewindPc_mem (s : State) : (s.rewindPc).mem = s.mem := rfl
@[simp] theorem State.rewindPc_v (s : State) : (s.rewindPc).v = s.v := rfl
@[simp] theorem State.rewindPc_i (s : State) : (s.rewindPc).i = s.i := rfl
@[simp] theorem State.rewindPc_pc (s : State) : (s.rewindPc).pc = s.pc - 2#16 := rfl
@[simp] theorem State.rewindPc_stack (s : State) : (s.rewindPc).stack = s.stack := rfl
@[simp] theorem State.rewindPc_dt (s : State) : (s.rewindPc).dt = s.dt := rfl
@[simp] theorem State.rewindPc_st (s : State) : (s.rewindPc).st = s.st := rfl
@[simp] theorem State.rewindPc_fb (s : State) : (s.rewindPc).fb = s.fb := rfl
@[simp] theorem State.rewindPc_key (s : State) : (s.rewindPc).key = s.key := rfl
@[simp] theorem State.rewindPc_status (s : State) : (s.rewindPc).status = s.status := rfl
@[simp] theorem State.rewindPc_cfg (s : State) : (s.rewindPc).cfg = s.cfg := rfl
@[simp] theorem State.rewindPc_provider (s : State) : (s.rewindPc).provider = s.provider := rfl
@[simp] theorem State.rewindPc_drawn (s : State) : (s.rewindPc).drawn = s.drawn := rfl

@[simp] theorem State.rewindPc_memRead (s : State) (k : Nat) : (s.rewindPc).memRead k = s.memRead k := rfl
@[simp] theorem State.rewindPc_readV (s : State) (r : Reg) : (s.rewindPc).readV r = s.readV r := rfl
@[simp] theorem State.rewindPc_readKey (s : State) (k : Fin 16) : (s.rewindPc).readKey k = s.readKey k := rfl

/-! ## writeI -/

@[simp] theorem State.writeI_mem (s : State) (a : Word) : (s.writeI a).mem = s.mem := rfl
@[simp] theorem State.writeI_v (s : State) (a : Word) : (s.writeI a).v = s.v := rfl
@[simp] theorem State.writeI_i (s : State) (a : Word) : (s.writeI a).i = a := rfl
@[simp] theorem State.writeI_pc (s : State) (a : Word) : (s.writeI a).pc = s.pc := rfl
@[simp] theorem State.writeI_stack (s : State) (a : Word) : (s.writeI a).stack = s.stack := rfl
@[simp] theorem State.writeI_dt (s : State) (a : Word) : (s.writeI a).dt = s.dt := rfl
@[simp] theorem State.writeI_st (s : State) (a : Word) : (s.writeI a).st = s.st := rfl
@[simp] theorem State.writeI_fb (s : State) (a : Word) : (s.writeI a).fb = s.fb := rfl
@[simp] theorem State.writeI_key (s : State) (a : Word) : (s.writeI a).key = s.key := rfl
@[simp] theorem State.writeI_status (s : State) (a : Word) : (s.writeI a).status = s.status := rfl
@[simp] theorem State.writeI_cfg (s : State) (a : Word) : (s.writeI a).cfg = s.cfg := rfl
@[simp] theorem State.writeI_provider (s : State) (a : Word) : (s.writeI a).provider = s.provider := rfl
@[simp] theorem State.writeI_drawn (s : State) (a : Word) : (s.writeI a).drawn = s.drawn := rfl

@[simp] theorem State.writeI_memRead (s : State) (a : Word) (k : Nat) : (s.writeI a).memRead k = s.memRead k := rfl
@[simp] theorem State.writeI_readV (s : State) (a : Word) (r : Reg) : (s.writeI a).readV r = s.readV r := rfl
@[simp] theorem State.writeI_readKey (s : State) (a : Word) (k : Fin 16) : (s.writeI a).readKey k = s.readKey k := rfl

/-! ## writeDt -/

@[simp] theorem State.writeDt_mem (s : State) (b : Byte) : (s.writeDt b).mem = s.mem := rfl
@[simp] theorem State.writeDt_v (s : State) (b : Byte) : (s.writeDt b).v = s.v := rfl
@[simp] theorem State.writeDt_i (s : State) (b : Byte) : (s.writeDt b).i = s.i := rfl
@[simp] theorem State.writeDt_pc (s : State) (b : Byte) : (s.writeDt b).pc = s.pc := rfl
@[simp] theorem State.writeDt_stack (s : State) (b : Byte) : (s.writeDt b).stack = s.stack := rfl
@[simp] theorem State.writeDt_dt (s : State) (b : Byte) : (s.writeDt b).dt = b := rfl
@[simp] theorem State.writeDt_st (s : State) (b : Byte) : (s.writeDt b).st = s.st := rfl
@[simp] theorem State.writeDt_fb (s : State) (b : Byte) : (s.writeDt b).fb = s.fb := rfl
@[simp] theorem State.writeDt_key (s : State) (b : Byte) : (s.writeDt b).key = s.key := rfl
@[simp] theorem State.writeDt_status (s : State) (b : Byte) : (s.writeDt b).status = s.status := rfl
@[simp] theorem State.writeDt_cfg (s : State) (b : Byte) : (s.writeDt b).cfg = s.cfg := rfl
@[simp] theorem State.writeDt_provider (s : State) (b : Byte) : (s.writeDt b).provider = s.provider := rfl
@[simp] theorem State.writeDt_drawn (s : State) (b : Byte) : (s.writeDt b).drawn = s.drawn := rfl

@[simp] theorem State.writeDt_memRead (s : State) (b : Byte) (k : Nat) : (s.writeDt b).memRead k = s.memRead k := rfl
@[simp] theorem State.writeDt_readV (s : State) (b : Byte) (r : Reg) : (s.writeDt b).readV r = s.readV r := rfl
@[simp] theorem State.writeDt_readKey (s : State) (b : Byte) (k : Fin 16) : (s.writeDt b).readKey k = s.readKey k := rfl

/-! ## writeSt -/

@[simp] theorem State.writeSt_mem (s : State) (b : Byte) : (s.writeSt b).mem = s.mem := rfl
@[simp] theorem State.writeSt_v (s : State) (b : Byte) : (s.writeSt b).v = s.v := rfl
@[simp] theorem State.writeSt_i (s : State) (b : Byte) : (s.writeSt b).i = s.i := rfl
@[simp] theorem State.writeSt_pc (s : State) (b : Byte) : (s.writeSt b).pc = s.pc := rfl
@[simp] theorem State.writeSt_stack (s : State) (b : Byte) : (s.writeSt b).stack = s.stack := rfl
@[simp] theorem State.writeSt_dt (s : State) (b : Byte) : (s.writeSt b).dt = s.dt := rfl
@[simp] theorem State.writeSt_st (s : State) (b : Byte) : (s.writeSt b).st = b := rfl
@[simp] theorem State.writeSt_fb (s : State) (b : Byte) : (s.writeSt b).fb = s.fb := rfl
@[simp] theorem State.writeSt_key (s : State) (b : Byte) : (s.writeSt b).key = s.key := rfl
@[simp] theorem State.writeSt_status (s : State) (b : Byte) : (s.writeSt b).status = s.status := rfl
@[simp] theorem State.writeSt_cfg (s : State) (b : Byte) : (s.writeSt b).cfg = s.cfg := rfl
@[simp] theorem State.writeSt_provider (s : State) (b : Byte) : (s.writeSt b).provider = s.provider := rfl
@[simp] theorem State.writeSt_drawn (s : State) (b : Byte) : (s.writeSt b).drawn = s.drawn := rfl

@[simp] theorem State.writeSt_memRead (s : State) (b : Byte) (k : Nat) : (s.writeSt b).memRead k = s.memRead k := rfl
@[simp] theorem State.writeSt_readV (s : State) (b : Byte) (r : Reg) : (s.writeSt b).readV r = s.readV r := rfl
@[simp] theorem State.writeSt_readKey (s : State) (b : Byte) (k : Fin 16) : (s.writeSt b).readKey k = s.readKey k := rfl

/-! ## tick -/

@[simp] theorem State.tick_mem (s : State) : (s.tick).mem = s.mem := rfl
@[simp] theorem State.tick_v (s : State) : (s.tick).v = s.v := rfl
@[simp] theorem State.tick_i (s : State) : (s.tick).i = s.i := rfl
@[simp] theorem State.tick_pc (s : State) : (s.tick).pc = s.pc := rfl
@[simp] theorem State.tick_stack (s : State) : (s.tick).stack = s.stack := rfl
@[simp] theorem State.tick_dt (s : State) : (s.tick).dt = countDown s.dt := rfl
@[simp] theorem State.tick_st (s : State) : (s.tick).st = countDown s.st := rfl
@[simp] theorem State.tick_fb (s : State) : (s.tick).fb = s.fb := rfl
@[simp] theorem State.tick_key (s : State) : (s.tick).key = s.key := rfl
@[simp] theorem State.tick_status (s : State) : (s.tick).status = s.status := rfl
@[simp] theorem State.tick_cfg (s : State) : (s.tick).cfg = s.cfg := rfl
@[simp] theorem State.tick_provider (s : State) : (s.tick).provider = s.provider := rfl
@[simp] theorem State.tick_drawn (s : State) : (s.tick).drawn = s.drawn := rfl

@[simp] theorem State.tick_memRead (s : State) (k : Nat) : (s.tick).memRead k = s.memRead k := rfl
@[simp] theorem State.tick_readV (s : State) (r : Reg) : (s.tick).readV r = s.readV r := rfl
@[simp] theorem State.tick_readKey (s : State) (k : Fin 16) : (s.tick).readKey k = s.readKey k := rfl

/-! ## writeFb -/

@[simp] theorem State.writeFb_mem (s : State) (f : FrameBuffer) : (s.writeFb f).mem = s.mem := rfl
@[simp] theorem State.writeFb_v (s : State) (f : FrameBuffer) : (s.writeFb f).v = s.v := rfl
@[simp] theorem State.writeFb_i (s : State) (f : FrameBuffer) : (s.writeFb f).i = s.i := rfl
@[simp] theorem State.writeFb_pc (s : State) (f : FrameBuffer) : (s.writeFb f).pc = s.pc := rfl
@[simp] theorem State.writeFb_stack (s : State) (f : FrameBuffer) : (s.writeFb f).stack = s.stack := rfl
@[simp] theorem State.writeFb_dt (s : State) (f : FrameBuffer) : (s.writeFb f).dt = s.dt := rfl
@[simp] theorem State.writeFb_st (s : State) (f : FrameBuffer) : (s.writeFb f).st = s.st := rfl
@[simp] theorem State.writeFb_fb (s : State) (f : FrameBuffer) : (s.writeFb f).fb = f := rfl
@[simp] theorem State.writeFb_key (s : State) (f : FrameBuffer) : (s.writeFb f).key = s.key := rfl
@[simp] theorem State.writeFb_status (s : State) (f : FrameBuffer) : (s.writeFb f).status = s.status := rfl
@[simp] theorem State.writeFb_cfg (s : State) (f : FrameBuffer) : (s.writeFb f).cfg = s.cfg := rfl
@[simp] theorem State.writeFb_provider (s : State) (f : FrameBuffer) : (s.writeFb f).provider = s.provider := rfl
@[simp] theorem State.writeFb_drawn (s : State) (f : FrameBuffer) : (s.writeFb f).drawn = s.drawn := rfl

@[simp] theorem State.writeFb_memRead (s : State) (f : FrameBuffer) (k : Nat) : (s.writeFb f).memRead k = s.memRead k := rfl
@[simp] theorem State.writeFb_readV (s : State) (f : FrameBuffer) (r : Reg) : (s.writeFb f).readV r = s.readV r := rfl
@[simp] theorem State.writeFb_readKey (s : State) (f : FrameBuffer) (k : Fin 16) : (s.writeFb f).readKey k = s.readKey k := rfl

/-! ## takeFault -/

@[simp] theorem State.takeFault_mem (s : State) (c : FaultCause) (w : Word) : (s.takeFault c w).mem = s.mem := rfl
@[simp] theorem State.takeFault_v (s : State) (c : FaultCause) (w : Word) : (s.takeFault c w).v = s.v := rfl
@[simp] theorem State.takeFault_i (s : State) (c : FaultCause) (w : Word) : (s.takeFault c w).i = s.i := rfl
@[simp] theorem State.takeFault_pc (s : State) (c : FaultCause) (w : Word) : (s.takeFault c w).pc = s.pc - 2#16 := rfl
@[simp] theorem State.takeFault_stack (s : State) (c : FaultCause) (w : Word) : (s.takeFault c w).stack = s.stack := rfl
@[simp] theorem State.takeFault_dt (s : State) (c : FaultCause) (w : Word) : (s.takeFault c w).dt = s.dt := rfl
@[simp] theorem State.takeFault_st (s : State) (c : FaultCause) (w : Word) : (s.takeFault c w).st = s.st := rfl
@[simp] theorem State.takeFault_fb (s : State) (c : FaultCause) (w : Word) : (s.takeFault c w).fb = s.fb := rfl
@[simp] theorem State.takeFault_key (s : State) (c : FaultCause) (w : Word) : (s.takeFault c w).key = s.key := rfl
@[simp] theorem State.takeFault_status (s : State) (c : FaultCause) (w : Word) : (s.takeFault c w).status = .faulted ⟨c, s.pc - 2#16, w⟩ := rfl
@[simp] theorem State.takeFault_cfg (s : State) (c : FaultCause) (w : Word) : (s.takeFault c w).cfg = s.cfg := rfl
@[simp] theorem State.takeFault_provider (s : State) (c : FaultCause) (w : Word) : (s.takeFault c w).provider = s.provider := rfl
@[simp] theorem State.takeFault_drawn (s : State) (c : FaultCause) (w : Word) : (s.takeFault c w).drawn = s.drawn := rfl

@[simp] theorem State.takeFault_memRead (s : State) (c : FaultCause) (w : Word) (k : Nat) : (s.takeFault c w).memRead k = s.memRead k := rfl
@[simp] theorem State.takeFault_readV (s : State) (c : FaultCause) (w : Word) (r : Reg) : (s.takeFault c w).readV r = s.readV r := rfl
@[simp] theorem State.takeFault_readKey (s : State) (c : FaultCause) (w : Word) (k : Fin 16) : (s.takeFault c w).readKey k = s.readKey k := rfl

/-! ## memWriteList, skipIf, consumeRandom, completeCycle: by cases -/

@[simp] theorem State.memWriteList_v (a : Nat) (bs : List Byte) (s : State) :
    (s.memWriteList a bs).v = s.v := by
  induction bs generalizing a s with
  | nil => rfl
  | cons b rest ih => rw [State.memWriteList, ih, State.memWrite_v]

@[simp] theorem State.memWriteList_i (a : Nat) (bs : List Byte) (s : State) :
    (s.memWriteList a bs).i = s.i := by
  induction bs generalizing a s with
  | nil => rfl
  | cons b rest ih => rw [State.memWriteList, ih, State.memWrite_i]

@[simp] theorem State.memWriteList_pc (a : Nat) (bs : List Byte) (s : State) :
    (s.memWriteList a bs).pc = s.pc := by
  induction bs generalizing a s with
  | nil => rfl
  | cons b rest ih => rw [State.memWriteList, ih, State.memWrite_pc]

@[simp] theorem State.memWriteList_stack (a : Nat) (bs : List Byte) (s : State) :
    (s.memWriteList a bs).stack = s.stack := by
  induction bs generalizing a s with
  | nil => rfl
  | cons b rest ih => rw [State.memWriteList, ih, State.memWrite_stack]

@[simp] theorem State.memWriteList_dt (a : Nat) (bs : List Byte) (s : State) :
    (s.memWriteList a bs).dt = s.dt := by
  induction bs generalizing a s with
  | nil => rfl
  | cons b rest ih => rw [State.memWriteList, ih, State.memWrite_dt]

@[simp] theorem State.memWriteList_st (a : Nat) (bs : List Byte) (s : State) :
    (s.memWriteList a bs).st = s.st := by
  induction bs generalizing a s with
  | nil => rfl
  | cons b rest ih => rw [State.memWriteList, ih, State.memWrite_st]

@[simp] theorem State.memWriteList_fb (a : Nat) (bs : List Byte) (s : State) :
    (s.memWriteList a bs).fb = s.fb := by
  induction bs generalizing a s with
  | nil => rfl
  | cons b rest ih => rw [State.memWriteList, ih, State.memWrite_fb]

@[simp] theorem State.memWriteList_key (a : Nat) (bs : List Byte) (s : State) :
    (s.memWriteList a bs).key = s.key := by
  induction bs generalizing a s with
  | nil => rfl
  | cons b rest ih => rw [State.memWriteList, ih, State.memWrite_key]

@[simp] theorem State.memWriteList_status (a : Nat) (bs : List Byte) (s : State) :
    (s.memWriteList a bs).status = s.status := by
  induction bs generalizing a s with
  | nil => rfl
  | cons b rest ih => rw [State.memWriteList, ih, State.memWrite_status]

@[simp] theorem State.memWriteList_cfg (a : Nat) (bs : List Byte) (s : State) :
    (s.memWriteList a bs).cfg = s.cfg := by
  induction bs generalizing a s with
  | nil => rfl
  | cons b rest ih => rw [State.memWriteList, ih, State.memWrite_cfg]

@[simp] theorem State.memWriteList_provider (a : Nat) (bs : List Byte) (s : State) :
    (s.memWriteList a bs).provider = s.provider := by
  induction bs generalizing a s with
  | nil => rfl
  | cons b rest ih => rw [State.memWriteList, ih, State.memWrite_provider]

@[simp] theorem State.memWriteList_drawn (a : Nat) (bs : List Byte) (s : State) :
    (s.memWriteList a bs).drawn = s.drawn := by
  induction bs generalizing a s with
  | nil => rfl
  | cons b rest ih => rw [State.memWriteList, ih, State.memWrite_drawn]

@[simp] theorem State.memWriteList_readV (a : Nat) (bs : List Byte) (s : State) (r : Reg) :
    (s.memWriteList a bs).readV r = s.readV r := by simp [State.readV]

@[simp] theorem State.memWriteList_readKey (a : Nat) (bs : List Byte) (s : State) (k : Fin 16) :
    (s.memWriteList a bs).readKey k = s.readKey k := by simp [State.readKey]

@[simp] theorem State.skipIf_mem (s : State) (c : Bool) : (s.skipIf c).mem = s.mem := by cases c <;> rfl
@[simp] theorem State.skipIf_v (s : State) (c : Bool) : (s.skipIf c).v = s.v := by cases c <;> rfl
@[simp] theorem State.skipIf_i (s : State) (c : Bool) : (s.skipIf c).i = s.i := by cases c <;> rfl
@[simp] theorem State.skipIf_pc (s : State) (c : Bool) :
    (s.skipIf c).pc = if c then s.pc + 2#16 else s.pc := by cases c <;> rfl
@[simp] theorem State.skipIf_stack (s : State) (c : Bool) : (s.skipIf c).stack = s.stack := by cases c <;> rfl
@[simp] theorem State.skipIf_dt (s : State) (c : Bool) : (s.skipIf c).dt = s.dt := by cases c <;> rfl
@[simp] theorem State.skipIf_st (s : State) (c : Bool) : (s.skipIf c).st = s.st := by cases c <;> rfl
@[simp] theorem State.skipIf_fb (s : State) (c : Bool) : (s.skipIf c).fb = s.fb := by cases c <;> rfl
@[simp] theorem State.skipIf_key (s : State) (c : Bool) : (s.skipIf c).key = s.key := by cases c <;> rfl
@[simp] theorem State.skipIf_status (s : State) (c : Bool) : (s.skipIf c).status = s.status := by cases c <;> rfl
@[simp] theorem State.skipIf_cfg (s : State) (c : Bool) : (s.skipIf c).cfg = s.cfg := by cases c <;> rfl
@[simp] theorem State.skipIf_provider (s : State) (c : Bool) : (s.skipIf c).provider = s.provider := by cases c <;> rfl
@[simp] theorem State.skipIf_drawn (s : State) (c : Bool) : (s.skipIf c).drawn = s.drawn := by cases c <;> rfl
@[simp] theorem State.skipIf_memRead (s : State) (c : Bool) (k : Nat) : (s.skipIf c).memRead k = s.memRead k := by
  cases c <;> rfl
@[simp] theorem State.skipIf_readV (s : State) (c : Bool) (r : Reg) : (s.skipIf c).readV r = s.readV r := by
  cases c <;> rfl
@[simp] theorem State.skipIf_readKey (s : State) (c : Bool) (k : Fin 16) : (s.skipIf c).readKey k = s.readKey k := by
  cases c <;> rfl

@[simp] theorem State.consumeRandom_mem (s : State) : s.consumeRandom.mem = s.mem := by
  unfold State.consumeRandom; split <;> rfl
@[simp] theorem State.consumeRandom_v (s : State) : s.consumeRandom.v = s.v := by
  unfold State.consumeRandom; split <;> rfl
@[simp] theorem State.consumeRandom_i (s : State) : s.consumeRandom.i = s.i := by
  unfold State.consumeRandom; split <;> rfl
@[simp] theorem State.consumeRandom_pc (s : State) : s.consumeRandom.pc = s.pc := by
  unfold State.consumeRandom; split <;> rfl
@[simp] theorem State.consumeRandom_stack (s : State) : s.consumeRandom.stack = s.stack := by
  unfold State.consumeRandom; split <;> rfl
@[simp] theorem State.consumeRandom_dt (s : State) : s.consumeRandom.dt = s.dt := by
  unfold State.consumeRandom; split <;> rfl
@[simp] theorem State.consumeRandom_st (s : State) : s.consumeRandom.st = s.st := by
  unfold State.consumeRandom; split <;> rfl
@[simp] theorem State.consumeRandom_fb (s : State) : s.consumeRandom.fb = s.fb := by
  unfold State.consumeRandom; split <;> rfl
@[simp] theorem State.consumeRandom_key (s : State) : s.consumeRandom.key = s.key := by
  unfold State.consumeRandom; split <;> rfl
@[simp] theorem State.consumeRandom_status (s : State) : s.consumeRandom.status = s.status := by
  unfold State.consumeRandom; split <;> rfl
@[simp] theorem State.consumeRandom_cfg (s : State) : s.consumeRandom.cfg = s.cfg := by
  unfold State.consumeRandom; split <;> rfl
@[simp] theorem State.consumeRandom_provider (s : State) : s.consumeRandom.provider = s.provider.tail := by
  unfold State.consumeRandom; split <;> simp [*]
theorem State.consumeRandom_drawn (s : State) :
    s.consumeRandom.drawn = if s.provider = [] then s.drawn + 1 else s.drawn := by
  unfold State.consumeRandom; split <;> simp [*]
@[simp] theorem State.consumeRandom_memRead (s : State) (k : Nat) : s.consumeRandom.memRead k = s.memRead k := by
  simp [State.memRead]
@[simp] theorem State.consumeRandom_readV (s : State) (r : Reg) : s.consumeRandom.readV r = s.readV r := by
  simp [State.readV]
@[simp] theorem State.consumeRandom_readKey (s : State) (k : Fin 16) : s.consumeRandom.readKey k = s.readKey k := by
  simp [State.readKey]

@[simp] theorem completeCycle_mem (s : State) : (completeCycle s).mem = s.mem := by
  unfold completeCycle; split <;> rfl
@[simp] theorem completeCycle_v (s : State) : (completeCycle s).v = s.v := by
  unfold completeCycle; split <;> rfl
@[simp] theorem completeCycle_i (s : State) : (completeCycle s).i = s.i := by
  unfold completeCycle; split <;> rfl
@[simp] theorem completeCycle_pc (s : State) : (completeCycle s).pc = s.pc := by
  unfold completeCycle; split <;> rfl
@[simp] theorem completeCycle_stack (s : State) : (completeCycle s).stack = s.stack := by
  unfold completeCycle; split <;> rfl
theorem completeCycle_dt (s : State) :
    (completeCycle s).dt = if s.status = .running then countDown s.dt else s.dt := by
  unfold completeCycle; split <;> simp [*]
theorem completeCycle_st (s : State) :
    (completeCycle s).st = if s.status = .running then countDown s.st else s.st := by
  unfold completeCycle; split <;> simp [*]
@[simp] theorem completeCycle_fb (s : State) : (completeCycle s).fb = s.fb := by
  unfold completeCycle; split <;> rfl
@[simp] theorem completeCycle_key (s : State) : (completeCycle s).key = s.key := by
  unfold completeCycle; split <;> rfl
@[simp] theorem completeCycle_status (s : State) : (completeCycle s).status = s.status := by
  unfold completeCycle; split <;> rfl
@[simp] theorem completeCycle_cfg (s : State) : (completeCycle s).cfg = s.cfg := by
  unfold completeCycle; split <;> rfl
@[simp] theorem completeCycle_provider (s : State) : (completeCycle s).provider = s.provider := by
  unfold completeCycle; split <;> rfl
@[simp] theorem completeCycle_drawn (s : State) : (completeCycle s).drawn = s.drawn := by
  unfold completeCycle; split <;> rfl
@[simp] theorem completeCycle_memRead (s : State) (k : Nat) : (completeCycle s).memRead k = s.memRead k := by
  simp [State.memRead]
@[simp] theorem completeCycle_readV (s : State) (r : Reg) : (completeCycle s).readV r = s.readV r := by
  simp [State.readV]
@[simp] theorem completeCycle_readKey (s : State) (k : Fin 16) : (completeCycle s).readKey k = s.readKey k := by
  simp [State.readKey]

/-! ## Registers: read after write -/

/-- A register read after a register write. -/
theorem State.readV_writeV (s : State) (x r : Reg) (b : Byte) :
    (s.writeV x b).readV r = if x = r then b else s.readV r := by
  simp only [State.readV, State.writeV_v, Vector.getElem_set, Fin.ext_iff]

@[simp] theorem State.readV_writeV_same (s : State) (x : Reg) (b : Byte) : (s.writeV x b).readV x = b := by
  simp [State.readV_writeV]

/-- A register read after load-block's register write. -/
theorem State.readV_loadRegs (s : State) (x r : Reg) (a : Nat) :
    (s.loadRegs x a).readV r = if r ≤ x then s.memRead (a + r.val) else s.readV r := by
  simp [State.readV]

/-- The register file is its reads. -/
theorem registers_ext (v w : Vector Byte 16) (h : ∀ r : Reg, v[r.val] = w[r.val]) : v = w :=
  Vector.ext fun k hk => h ⟨k, hk⟩

/-! ## The outcomes of the stack and key operations -/

theorem State.push_none_iff (s : State) (a : Word) : s.push a = none ↔ stackFull s.cfg.stackDepth s.stack = true := by
  unfold State.push; split <;> simp [*]

theorem State.push_some (s t : State) (a : Word) (h : s.push a = some t) : t = { s with stack := a :: s.stack } := by
  unfold State.push at h; split at h <;> simp_all

theorem State.pop_none_iff (s : State) : s.pop = none ↔ s.stack = [] := by
  unfold State.pop; split <;> simp [*]

theorem State.pop_some (s t : State) (a : Word) (h : s.pop = some (a, t)) :
    s.stack = a :: t.stack ∧ t = { s with stack := t.stack } := by
  unfold State.pop at h; split at h <;> simp_all
  obtain ⟨rfl, rfl⟩ := h; simp

/-- KeyIndexRange arises exactly for a value of 16 or more under the policy fault (R134, R141). -/
theorem State.keyPressed_none_iff (s : State) (b : Byte) :
    s.keyPressed b = none ↔ 16 ≤ b.toNat ∧ s.cfg.keyIndexPolicy = .fault := by
  unfold State.keyPressed; split
  · simp; omega
  · split <;> simp [*]
    omega

/-- Undoing the fetch's pre-increment gives the address of the instruction back (R144). -/
@[simp] theorem advance_then_rewind (a : Word) : a + 2#16 - 2#16 = a := by
  rw [BitVec.add_sub_cancel]

end Sys2Proof.Machine
end

