-- ==== Sys2Proof/Laws/FrameBuffer.lean ====
section
/-! SUPPORT. The frame buffer: a cell after a toggle, a cleared buffer, and what drawing does to each cell. -/

namespace Sys2Proof.Machine

/-- Two frame buffers with the same cells are equal. -/
theorem FrameBuffer.ext_cell (f g : FrameBuffer)
    (h : ∀ col row, col < 64 → row < 32 → f.cell col row = g.cell col row) : f = g := by
  refine Vector.ext fun col hc => Vector.ext fun row hr => ?_
  have := h col row hc hr
  simpa [FrameBuffer.cell, hc, hr] using this

@[simp] theorem FrameBuffer.cell_unlit (col row : Nat) : FrameBuffer.unlit.cell col row = false := by
  unfold FrameBuffer.cell FrameBuffer.unlit
  split <;> simp

/-- Outside the display a cell reads unlit. -/
theorem FrameBuffer.cell_outside (f : FrameBuffer) (col row : Nat) (h : ¬ (col < 64 ∧ row < 32)) :
    f.cell col row = false := by
  rw [FrameBuffer.cell, dif_neg h]

/-- A toggle flips its own cell, if it is on the display, and no other. -/
theorem FrameBuffer.cell_toggle (f : FrameBuffer) (c r col row : Nat) (hc : c < 64) (hr : r < 32) :
    (f.toggle c r).cell col row = (f.cell col row ^^ decide (col = c ∧ row = r)) := by
  by_cases h : col < 64 ∧ row < 32
  · simp only [FrameBuffer.cell, FrameBuffer.toggle, dif_pos (And.intro hc hr), dif_pos h, Vector.getElem_set]
    by_cases h1 : c = col <;> by_cases h2 : r = row <;> simp [h1, h2, eq_comm]
  · rw [FrameBuffer.cell_outside _ _ _ h, FrameBuffer.cell_outside _ _ _ h]
    simp; omega

end Sys2Proof.Machine
end

