-- ==== Sys2Proof/Laws/Display.lean ====
section
/-! SUPPORT. What drawing a bit, a row and a sprite does to every cell and to the collision flag (R97). -/

namespace Sys2Proof.Machine

/-- A loop over range (m + 1) is the loop over range m and one more turn. -/
theorem foldl_range_succ {α : Type} (f : α → Nat → α) (a : α) (m : Nat) :
    (List.range (m + 1)).foldl f a = f ((List.range m).foldl f a) m := by
  rw [List.range_succ, List.foldl_append]; rfl

theorem drawBit_cell (bit : Bool) (c r : Nat) (p : Canvas) (col row : Nat) (hc : c < 64) (hr : r < 32) :
    (drawBit bit c r p).1.cell col row = (p.1.cell col row ^^ (bit && decide (col = c ∧ row = r))) := by
  cases bit
  · simp [drawBit]
  · simp only [drawBit, if_true, Bool.true_and, FrameBuffer.cell_toggle _ _ _ _ _ hc hr]

theorem drawBit_flag (bit : Bool) (c r : Nat) (p : Canvas) :
    (drawBit bit c r p).2 = (p.2 || (bit && p.1.cell c r)) := by
  cases bit <;> simp [drawBit]

/-- The first m columns of a row: the cells they toggle, and a collision exactly where a set bit meets a lit cell. -/
theorem drawColumns_spec (b : Byte) (cx row m : Nat) (p : Canvas) (hr : row < 32) (hm : m ≤ colsDrawn cx) :
    let q := (List.range m).foldl (fun acc k => drawBit (b.getMsbD k) (cx + k) row acc) p
    (∀ col r, q.1.cell col r = (p.1.cell col r ^^ (decide (r = row ∧ cx ≤ col ∧ col < cx + m) && b.getMsbD (col - cx)))) ∧
      (q.2 = true ↔ p.2 = true ∨ ∃ col, cx ≤ col ∧ col < cx + m ∧ b.getMsbD (col - cx) = true ∧ p.1.cell col row = true) := by
  induction m with
  | zero =>
    refine ⟨fun col r => ?_, ?_⟩
    · have : ¬ (r = row ∧ cx ≤ col ∧ col < cx + 0) := by omega
      simp only [this, decide_false, Bool.false_and, Bool.xor_false, List.range_zero, List.foldl_nil]
    · simp only [List.range_zero, List.foldl_nil]
      exact ⟨.inl, fun h => h.elim id fun ⟨_, _, _, _⟩ => by omega⟩
  | succ m ih =>
    obtain ⟨hcell, hflag⟩ := ih (by omega)
    have hcol : cx + m < 64 := by simp only [colsDrawn, displayW] at hm; omega
    simp only [foldl_range_succ]
    refine ⟨fun col r => ?_, ?_⟩
    · rw [drawBit_cell _ _ _ _ _ _ hcol hr, hcell]
      by_cases h : col = cx + m ∧ r = row
      · obtain ⟨rfl, rfl⟩ := h
        simp
      · have e : (r = row ∧ cx ≤ col ∧ col < cx + (m + 1)) ↔ (r = row ∧ cx ≤ col ∧ col < cx + m) := by omega
        simp [h, e]
    · rw [drawBit_flag, Bool.or_eq_true, hflag, Bool.and_eq_true, hcell]
      have hlast : decide (row = row ∧ cx ≤ cx + m ∧ cx + m < cx + m) = false := by simp
      rw [hlast, Bool.false_and, Bool.xor_false]
      constructor
      · rintro ((h | ⟨col, h1, h2, h3, h4⟩) | ⟨h1, h2⟩)
        · exact .inl h
        · exact .inr ⟨col, h1, by omega, h3, h4⟩
        · exact .inr ⟨cx + m, by omega, by omega, by simpa using h1, h2⟩
      · rintro (h | ⟨col, h1, h2, h3, h4⟩)
        · exact .inl (.inl h)
        · by_cases hx : col = cx + m
          · subst hx; exact .inr ⟨by simpa using h3, h4⟩
          · exact .inl (.inr ⟨col, h1, by omega, h3, h4⟩)

/-- One row: exactly its set bits that lie on the display toggle their cells (R97). -/
theorem drawRow_cell (b : Byte) (cx row : Nat) (p : Canvas) (col r : Nat) (hr : row < 32) (hcol : col < 64) :
    (drawRow b cx row p).1.cell col r =
      (p.1.cell col r ^^ (decide (r = row ∧ cx ≤ col ∧ col < cx + 8) && b.getMsbD (col - cx))) := by
  rw [drawRow, (drawColumns_spec b cx row (colsDrawn cx) p hr le_rfl).1]
  have : (r = row ∧ cx ≤ col ∧ col < cx + colsDrawn cx) ↔ (r = row ∧ cx ≤ col ∧ col < cx + 8) := by
    simp only [colsDrawn, displayW]; omega
  simp [this]

/-- One row: a collision exactly where a set bit falls on a lit cell of the display (R97). -/
theorem drawRow_flag (b : Byte) (cx row : Nat) (p : Canvas) (hr : row < 32) :
    (drawRow b cx row p).2 = true ↔ p.2 = true ∨
      ∃ col, col < 64 ∧ cx ≤ col ∧ col < cx + 8 ∧ b.getMsbD (col - cx) = true ∧ p.1.cell col row = true := by
  rw [drawRow, (drawColumns_spec b cx row (colsDrawn cx) p hr le_rfl).2]
  have e : ∀ col, (cx ≤ col ∧ col < cx + colsDrawn cx) ↔ (col < 64 ∧ cx ≤ col ∧ col < cx + 8) := by
    intro col; simp only [colsDrawn, displayW]; omega
  constructor <;> rintro (h | ⟨col, h⟩)
  · exact .inl h
  · exact .inr ⟨col, by have := (e col).mp ⟨h.1, h.2.1⟩; tauto⟩
  · exact .inl h
  · exact .inr ⟨col, by have := (e col).mpr ⟨h.1, h.2.1, h.2.2.1⟩; tauto⟩

/-- The first m rows of a sprite. -/
theorem drawRows_spec (sprite : Nat → Byte) (cx cy n m : Nat) (p : Canvas) (hm : m ≤ rowsDrawn n cy) :
    let q := (List.range m).foldl (fun acc r => drawRow (sprite r) cx (cy + r) acc) p
    (∀ col row, col < 64 → q.1.cell col row = (p.1.cell col row ^^
        (decide (cy ≤ row ∧ row < cy + m ∧ cx ≤ col ∧ col < cx + 8) && (sprite (row - cy)).getMsbD (col - cx)))) ∧
      (q.2 = true ↔ p.2 = true ∨ ∃ col row, col < 64 ∧ cy ≤ row ∧ row < cy + m ∧ cx ≤ col ∧ col < cx + 8 ∧
        (sprite (row - cy)).getMsbD (col - cx) = true ∧ p.1.cell col row = true) := by
  induction m with
  | zero =>
    refine ⟨fun col row _ => ?_, ?_⟩
    · have : ¬ (cy ≤ row ∧ row < cy + 0 ∧ cx ≤ col ∧ col < cx + 8) := by omega
      simp only [this, decide_false, Bool.false_and, Bool.xor_false, List.range_zero, List.foldl_nil]
    · simp only [List.range_zero, List.foldl_nil]
      exact ⟨.inl, fun h => h.elim id fun ⟨_, _, _, _, _, _⟩ => by omega⟩
  | succ m ih =>
    obtain ⟨hcell, hflag⟩ := ih (by omega)
    have hrow : cy + m < 32 := by simp only [rowsDrawn, displayH] at hm; omega
    simp only [foldl_range_succ]
    refine ⟨fun col row hcol => ?_, ?_⟩
    · rw [drawRow_cell _ _ _ _ _ _ hrow hcol, hcell _ _ hcol]
      by_cases h : row = cy + m
      · subst h
        simp
      · have e : (cy ≤ row ∧ row < cy + (m + 1) ∧ cx ≤ col ∧ col < cx + 8) ↔
            (cy ≤ row ∧ row < cy + m ∧ cx ≤ col ∧ col < cx + 8) := by omega
        simp [h, e]
    · rw [drawRow_flag _ _ _ _ hrow, hflag]
      have hsame : ∀ col, col < 64 → ((List.range m).foldl (fun acc r => drawRow (sprite r) cx (cy + r) acc) p).1.cell
          col (cy + m) = p.1.cell col (cy + m) := fun col hc => by
        rw [hcell _ _ hc]; simp
      constructor
      · rintro ((h | ⟨col, row, h1, h2, h3, h4⟩) | ⟨col, h1, h2, h3, h4, h5⟩)
        · exact .inl h
        · exact .inr ⟨col, row, h1, h2, by omega, h4⟩
        · exact .inr ⟨col, cy + m, h1, by omega, by omega, h2, h3, by simpa using h4, by rwa [hsame col h1] at h5⟩
      · rintro (h | ⟨col, row, h1, h2, h3, h4, h5, h6, h7⟩)
        · exact .inl (.inl h)
        · by_cases hx : row = cy + m
          · subst hx
            exact .inr ⟨col, h1, h4, h5, by simpa using h6, by rwa [hsame col h1]⟩
          · exact .inl (.inr ⟨col, row, h1, h2, by omega, h4, h5, h6, h7⟩)

end Sys2Proof.Machine
end

