-- ==== Sys2Proof/Laws/Memory.lean ====
section
/-! SUPPORT. The memory: a read after a write, a write leaves every other location alone, and every memory
operation keeps the canonical form. -/

namespace Sys2Proof.Machine

/-! ## One location -/

theorem Memory.lookup_insert (a k : Nat) (b : Byte) (m : Memory) :
    Memory.lookup k (Memory.insert a b m) = if a = k then some b else Memory.lookup k m := by
  induction m with
  | nil => simp [Memory.insert, Memory.lookup]
  | cons c rest ih =>
    obtain ⟨j, d⟩ := c
    simp only [Memory.insert]
    split
    · simp [Memory.lookup]
    · split <;> simp only [Memory.lookup, ih] <;> grind

theorem Memory.lookup_erase (a k : Nat) (m : Memory) :
    Memory.lookup k (Memory.erase a m) = if a = k then none else Memory.lookup k m := by
  induction m with
  | nil => simp [Memory.erase, Memory.lookup]
  | cons c rest ih =>
    obtain ⟨j, d⟩ := c
    simp only [Memory.erase, List.filter_cons] at ih ⊢
    split <;> simp only [Memory.lookup, ih] <;> grind

/-- A read after a write: the byte written at its location, every other location as before (R58, R59). -/
theorem Memory.read_write (g : GlyphTable) (m : Memory) (a k : Nat) (b : Byte) :
    Memory.read g (Memory.write g a b m) k = if a = k then b else Memory.read g m k := by
  unfold Memory.read Memory.write
  split
  · rename_i h
    rw [Memory.lookup_erase]
    split <;> simp_all
  · rw [Memory.lookup_insert]
    split <;> simp

/-! ## The canonical form -/

theorem Memory.mem_insert (a : Nat) (b : Byte) (m : Memory) (c : Host.Cell) (h : c ∈ Memory.insert a b m) :
    c = (a, b) ∨ c ∈ m := by
  induction m with
  | nil => simpa [Memory.insert] using h
  | cons d rest ih =>
    obtain ⟨k, e⟩ := d
    simp only [Memory.insert] at h
    split at h
    · simpa using h
    · split at h
      · simp only [List.mem_cons] at h ⊢; tauto
      · simp only [List.mem_cons] at h ⊢
        rcases h with h | h
        · exact .inr (.inl h)
        · rcases ih h with h | h
          · exact .inl h
          · exact .inr (.inr h)

theorem Memory.insert_rising (a : Nat) (b : Byte) (m : Memory) (h : m.Pairwise (fun p q => p.1 < q.1)) :
    (Memory.insert a b m).Pairwise (fun p q => p.1 < q.1) := by
  induction m with
  | nil => simp [Memory.insert]
  | cons d rest ih =>
    obtain ⟨k, e⟩ := d
    obtain ⟨hk, hr⟩ := List.pairwise_cons.mp h
    simp only [Memory.insert]
    split
    · rename_i hlt
      refine List.pairwise_cons.mpr ⟨fun c hc => ?_, h⟩
      rcases List.mem_cons.mp hc with rfl | hc
      · exact hlt
      · exact lt_trans hlt (hk c hc)
    · split
      · rename_i _ heq
        subst heq
        exact List.pairwise_cons.mpr ⟨hk, hr⟩
      · refine List.pairwise_cons.mpr ⟨fun c hc => ?_, ih hr⟩
        rcases Memory.mem_insert a b rest c hc with rfl | hc
        · simp only; omega
        · exact hk c hc

/-- A write to a location keeps the canonical form. -/
theorem Memory.wf_write (g : GlyphTable) (m : Memory) (a : Nat) (b : Byte) (ha : a < memSize)
    (h : Memory.wf g m) : Memory.wf g (Memory.write g a b m) := by
  obtain ⟨hs, hc⟩ := h
  unfold Memory.write
  split
  · exact ⟨hs.filter _, fun c hm => hc c (List.mem_filter.mp hm).1⟩
  · rename_i hb
    refine ⟨Memory.insert_rising a b m hs, fun c hm => ?_⟩
    rcases Memory.mem_insert a b m c hm with rfl | hm
    · exact ⟨ha, hb⟩
    · exact hc c hm

theorem location_lt (a : Nat) : location a < memSize := Nat.mod_lt _ (by decide)

/-! ## Canonical memories with equal bytes are equal -/

theorem Memory.lookup_below (k : Nat) (m : Memory) (h : ∀ c ∈ m, k < c.1) : Memory.lookup k m = none := by
  induction m with
  | nil => rfl
  | cons c rest ih =>
    have hc := h c (by simp)
    simp only [Memory.lookup]
    rw [if_neg (by omega)]
    exact ih fun d hd => h d (by simp [hd])

/-- In a canonical memory a location is listed exactly when its byte differs from the construction value. -/
theorem Memory.lookup_of_wf (g : GlyphTable) (m : Memory) (k : Nat) (h : Memory.wf g m) :
    Memory.lookup k m = if Memory.read g m k = resetByte g k then none else some (Memory.read g m k) := by
  have key : ∀ b, Memory.lookup k m = some b → b ≠ resetByte g k := by
    obtain ⟨_, hc⟩ := h
    induction m with
    | nil => simp [Memory.lookup]
    | cons c rest ih =>
      intro b hb
      simp only [Memory.lookup] at hb
      split at hb
      · rename_i he
        have := (hc c (by simp)).2
        simp_all
      · exact ih (List.Pairwise.of_cons ‹_›) (fun d hd => hc d (by simp [hd])) b hb
  unfold Memory.read
  cases hl : Memory.lookup k m with
  | none => simp
  | some b => simp [key b hl]

/-- Two canonical memories that read the same everywhere are the same list. -/
theorem Memory.eq_of_read (g : GlyphTable) (m m' : Memory) (h : Memory.wf g m) (h' : Memory.wf g m')
    (hr : ∀ k, Memory.read g m k = Memory.read g m' k) : m = m' := by
  have hl : ∀ k, Memory.lookup k m = Memory.lookup k m' := fun k => by
    rw [Memory.lookup_of_wf g m k h, Memory.lookup_of_wf g m' k h', hr]
  clear hr
  induction m generalizing m' with
  | nil =>
    cases m' with
    | nil => rfl
    | cons c rest => have := hl c.1; simp [Memory.lookup] at this
  | cons c rest ih =>
    cases m' with
    | nil => have := hl c.1; simp [Memory.lookup] at this
    | cons c' rest' =>
      obtain ⟨hs, hc⟩ := h
      obtain ⟨hs', hc'⟩ := h'
      obtain ⟨hlt, hr⟩ := List.pairwise_cons.mp hs
      obtain ⟨hlt', hr'⟩ := List.pairwise_cons.mp hs'
      have hkey : c.1 = c'.1 := by
        rcases Nat.lt_trichotomy c.1 c'.1 with hx | hx | hx
        · have e := hl c.1
          rw [Memory.lookup_below c.1 (c' :: rest') (by
            intro d hd
            rcases List.mem_cons.mp hd with rfl | hd
            · exact hx
            · exact lt_trans hx (hlt' d hd))] at e
          simp [Memory.lookup] at e
        · exact hx
        · have e := hl c'.1
          rw [Memory.lookup_below c'.1 (c :: rest) (by
            intro d hd
            rcases List.mem_cons.mp hd with rfl | hd
            · exact hx
            · exact lt_trans hx (hlt d hd))] at e
          simp [Memory.lookup] at e
      have hval : c.2 = c'.2 := by
        have e := hl c.1
        simpa [Memory.lookup, hkey] using e
      have hcc : c = c' := Prod.ext hkey hval
      subst hcc
      refine congrArg _ (ih rest' ⟨hr, fun d hd => hc d (by simp [hd])⟩
        ⟨hr', fun d hd => hc' d (by simp [hd])⟩ fun k => ?_)
      by_cases hk : c.1 = k
      · subst hk
        rw [Memory.lookup_below _ rest hlt, Memory.lookup_below _ rest' hlt']
      · have e := hl k
        simpa [Memory.lookup, hk] using e

/-! ## The machine's reads and writes -/

/-- `MemRead` after `MemWrite`, through the address decoder (R57 to R59). -/
theorem State.memRead_memWrite (s : State) (a k : Nat) (b : Byte) :
    (s.memWrite a b).memRead k = if location a = location k then b else s.memRead k := by
  simp only [State.memRead, State.memWrite_mem, State.memWrite_cfg, Memory.read_write]

/-- A list store leaves every location outside its bytes alone. -/
theorem State.memRead_memWriteList_outside (a : Nat) (bs : List Byte) (s : State) (k : Nat)
    (h : ∀ j < bs.length, location (a + j) ≠ location k) : (s.memWriteList a bs).memRead k = s.memRead k := by
  induction bs generalizing a s with
  | nil => rfl
  | cons b rest ih =>
    rw [State.memWriteList, ih, State.memRead_memWrite, if_neg]
    · simpa using h 0 (by simp)
    · intro j hj
      have := h (j + 1) (by simpa using hj)
      rwa [show a + 1 + j = a + (j + 1) by omega]

/-- A list store of at most one memory's length puts each byte at its own address. -/
theorem State.memRead_memWriteList_inside (a : Nat) (bs : List Byte) (s : State) (j : Nat) (hj : j < bs.length)
    (hlen : bs.length ≤ memSize) : (s.memWriteList a bs).memRead (a + j) = bs[j] := by
  induction bs generalizing a s j with
  | nil => simp at hj
  | cons b rest ih =>
    simp only [List.length_cons] at hj hlen
    cases j with
    | zero =>
      rw [State.memWriteList, State.memRead_memWriteList_outside, State.memRead_memWrite]
      · simp
      · intro k hk
        simp only [location, memSize] at hlen ⊢
        omega
    | succ j =>
      rw [State.memWriteList, show a + (j + 1) = a + 1 + j by omega, ih (a + 1) _ j (by omega) (by omega)]
      simp

/-- A list store keeps the canonical form. -/
theorem State.wf_memWriteList (a : Nat) (bs : List Byte) (s : State)
    (h : Memory.wf s.cfg.glyphTable s.mem) : Memory.wf s.cfg.glyphTable (s.memWriteList a bs).mem := by
  induction bs generalizing a s with
  | nil => exact h
  | cons b rest ih =>
    exact ih (a + 1) (s.memWrite a b) (Memory.wf_write _ _ _ _ (location_lt a) h)

/-- Stores and reads see an address only through its location (R57). -/
theorem State.memRead_location (s : State) (a b : Nat) (h : location a = location b) : s.memRead a = s.memRead b := by
  rw [State.memRead, h, State.memRead]

end Sys2Proof.Machine
end

