-- ==== Sys2Proof/Laws/Operands.lean ====
section
/-! SUPPORT. What the shared operand, flag and key operations answer. -/

namespace Sys2Proof.Machine

/-- A countdown is one less, floored at 0 (R36). -/
theorem countDown_toNat (b : Byte) : (countDown b).toNat = b.toNat - 1 := by
  unfold countDown
  split
  · simp [*]
  · rename_i h
    have : b.toNat ≠ 0 := fun e => h (BitVec.eq_of_toNat_eq (by simpa using e))
    have := b.isLt
    simp [BitVec.toNat_sub]; omega

/-- The registers stored by store-block, by number (R128). -/
theorem State.regsUpTo_length (s : State) (x : Reg) : (s.regsUpTo x).length = x.val + 1 := by
  simp [State.regsUpTo]

theorem State.regsUpTo_getElem (s : State) (x k : Reg) (hk : k.val < (s.regsUpTo x).length) :
    (s.regsUpTo x)[k.val] = s.readV k := by
  simp [State.regsUpTo, State.readV]

/-- The key a register value selects: its own number below 16, modulo 16 under the policy mask, none pressed under
not_pressed (R134). -/
theorem State.keyPressed_some (s : State) (b : Byte) (p : Bool) (h : s.keyPressed b = some p) :
    (b.toNat < 16 ∨ s.cfg.keyIndexPolicy = .mask) ∧ p = s.readKey (keyOf b) ∨
      16 ≤ b.toNat ∧ s.cfg.keyIndexPolicy = .notPressed ∧ p = false := by
  unfold State.keyPressed at h
  split at h
  · simp_all
  · split at h <;> simp_all

/-- The lowest pressed key, or no key pressed (R137). -/
theorem State.lowestPressedKey_some (s : State) (k : Fin 16) :
    s.lowestPressedKey = some k ↔ s.readKey k = true ∧ ∀ j < k, s.readKey j = false := by
  rw [State.lowestPressedKey, List.find?_eq_some_iff_getElem]
  constructor
  · rintro ⟨h, n, hn, rfl, hlt⟩
    refine ⟨h, fun j hj => ?_⟩
    have := hlt j.val (by simpa [Fin.lt_def] using hj)
    simpa using this
  · rintro ⟨h, hlt⟩
    refine ⟨h, k.val, by simp, by simp, fun j hj => ?_⟩
    have := hlt ⟨j, by omega⟩ (by simpa [Fin.lt_def] using hj)
    simpa using this

theorem State.lowestPressedKey_none (s : State) : s.lowestPressedKey = none ↔ ∀ k, s.readKey k = false := by
  simp [State.lowestPressedKey]

/-- A flag-writing ALU operation changes the register file and nothing else (R108). -/
theorem State.flagged_only_v (flag : Byte → Byte → Bool) (result : Byte → Byte → Byte) (x y : Reg) (s : State) :
    s.flagged flag result x y = { s with v := (s.flagged flag result x y).v } := by
  unfold State.flagged; split <;> rfl

theorem State.flaggedLatched_only_v (flag : Byte → Byte → Bool) (result : Byte → Byte → Byte) (x y : Reg) (s : State) :
    s.flaggedLatched flag result x y = { s with v := (s.flaggedLatched flag result x y).v } := rfl

/-- The registers after the latched form: the result in Vx, else the flag in VF, else as before (R108). -/
theorem State.readV_flaggedLatched (flag : Byte → Byte → Bool) (result : Byte → Byte → Byte) (x y r : Reg) (s : State) :
    (s.flaggedLatched flag result x y).readV r =
      if x = r then result (s.readV x) (s.readV y)
      else if vF = r then flagByte (flag (s.readV x) (s.readV y)) else s.readV r := by
  rw [State.flaggedLatched, State.readV_writeV, State.readV_writeV]

/-- The registers after the sequential form: an operand that is VF is read after the flag is written (R108). -/
theorem State.readV_flaggedSequential (flag : Byte → Byte → Bool) (result : Byte → Byte → Byte) (x y r : Reg) (s : State) :
    (s.flaggedSequential flag result x y).readV r =
      if x = r then result (if vF = x then flagByte (flag (s.readV x) (s.readV y)) else s.readV x)
        (if vF = y then flagByte (flag (s.readV x) (s.readV y)) else s.readV y)
      else if vF = r then flagByte (flag (s.readV x) (s.readV y)) else s.readV r := by
  simp only [State.flaggedSequential, State.readV_writeV]

end Sys2Proof.Machine
end

