-- ==== Sys2Proof/Laws/Safety.lean ====
section
/-! SUPPORT. The parts of `Part` are the whole state, frames compose, and a placed word is the next word fetched. -/

namespace Sys2Proof.Machine

/-- Nothing of the state lies outside the parts: two states with canonical memories that agree on every part are
equal, so a frame that names no part leaves the whole state. -/
theorem eq_of_sameParts (s t : State) (hs : Memory.wf s.cfg.glyphTable s.mem) (ht : Memory.wf t.cfg.glyphTable t.mem)
    (h : ∀ p, samePart p s t) : t = s := by
  have hcfg : t.cfg = s.cfg := h .cfg
  have hmem : t.mem = s.mem := by
    rw [hcfg] at ht
    refine Memory.eq_of_read _ _ _ ht hs fun k => ?_
    by_cases hk : k < memSize
    · have := h (.byte k)
      simpa [samePart, State.memRead, hcfg, location, Nat.mod_eq_of_lt hk] using this
    · have absent : ∀ m : Memory, Memory.wf s.cfg.glyphTable m → Memory.lookup k m = none := by
        intro m hm
        induction m with
        | nil => rfl
        | cons c rest ih =>
          have := (hm.2 c (by simp)).1
          rw [Memory.lookup, if_neg (by omega)]
          exact ih ⟨List.Pairwise.of_cons hm.1, fun d hd => hm.2 d (by simp [hd])⟩
      rw [Memory.read, Memory.read, absent _ ht, absent _ hs]
  have hv : t.v = s.v := registers_ext _ _ fun r => h (.reg r)
  have hfb : t.fb = s.fb := FrameBuffer.ext_cell _ _ fun col row _ _ => h (.cell col row)
  have hkey : t.key = s.key := Vector.ext fun k hk => h (.key ⟨k, hk⟩)
  have hi : t.i = s.i := h .index
  have hpc : t.pc = s.pc := h .pc
  have hstack : t.stack = s.stack := h .stack
  have hdt : t.dt = s.dt := h .delay
  have hst : t.st = s.st := h .sound
  have hstatus : t.status = s.status := h .status
  have hprov : t.provider = s.provider := h .provider
  have hdrawn : t.drawn = s.drawn := h .drawn
  cases s; cases t; simp_all

/-- Frames compose. -/
theorem changesOnly_trans {may may' : Part → Prop} {s t u : State} (h : changesOnly may s t)
    (h' : changesOnly may' t u) : changesOnly (fun p => may p ∨ may' p) s u := by
  intro p hp
  have h1 := h p fun hm => hp (.inl hm)
  have h2 := h' p fun hm => hp (.inr hm)
  cases p <;> simp only [samePart] at h1 h2 ⊢ <;> rw [h2, h1]

/-- The two bytes of a placed word lie at different locations, so the next fetch reads the word whole (R61, R77). -/
theorem State.fetchWord_placeWord (s : State) (w : Word) : (s.placeWord w).fetchWord = w := by
  have h0 := State.memRead_memWriteList_inside s.pc.toNat [highByte w, lowByte w] s 0 (by simp) (by simp [memSize])
  have h1 := State.memRead_memWriteList_inside s.pc.toNat [highByte w, lowByte w] s 1 (by simp) (by simp [memSize])
  have e : (s.placeWord w).fetchWord = wordOfBytes
      ((s.memWriteList s.pc.toNat [highByte w, lowByte w]).memRead (s.pc.toNat + 0))
      ((s.memWriteList s.pc.toNat [highByte w, lowByte w]).memRead (s.pc.toNat + 1)) := by
    simp [State.fetchWord, State.placeWord, State.memRead]
  rw [e, h0, h1]
  exact wordOfBytes_split w

/-! ## `construct()` on a machine: one lemma per field -/

@[simp] theorem reconstruct_mem (s : State) : (reconstruct s).mem = [] := rfl
@[simp] theorem reconstruct_v (s : State) : (reconstruct s).v = Vector.replicate 16 0#8 := rfl
@[simp] theorem reconstruct_i (s : State) : (reconstruct s).i = 0#16 := rfl
@[simp] theorem reconstruct_pc (s : State) : (reconstruct s).pc = pcReset := rfl
@[simp] theorem reconstruct_stack (s : State) : (reconstruct s).stack = [] := rfl
@[simp] theorem reconstruct_dt (s : State) : (reconstruct s).dt = 0#8 := rfl
@[simp] theorem reconstruct_st (s : State) : (reconstruct s).st = 0#8 := rfl
@[simp] theorem reconstruct_fb (s : State) : (reconstruct s).fb = FrameBuffer.unlit := rfl
@[simp] theorem reconstruct_key (s : State) : (reconstruct s).key = Vector.replicate 16 false := rfl
@[simp] theorem reconstruct_status (s : State) : (reconstruct s).status = .running := rfl
@[simp] theorem reconstruct_cfg (s : State) : (reconstruct s).cfg = s.cfg := rfl
@[simp] theorem reconstruct_provider (s : State) : (reconstruct s).provider = s.provider := rfl
@[simp] theorem reconstruct_drawn (s : State) : (reconstruct s).drawn = s.drawn := rfl

end Sys2Proof.Machine
end

