-- ==== Sys2Proof/Laws/Exec.lean ====
section
/-! SUPPORT. What executing one instruction can do, said once by shape: every meaning answers a next state, and that
state is one of the shapes of `Effect`. Frames and invariants are derived from it by cases. -/

namespace Sys2Proof.Machine

/-- The shapes of an instruction's effect. The values written are the business of the result statements. -/
inductive Effect (i : Instr) (s : State) : State → Prop where
  | writeReg (x : Reg) (b : Byte) (h : writesReg i x) : Effect i s (s.writeV x b)
  | writeFlagAndReg (x : Reg) (a b : Byte) (hF : writesReg i vF) (h : writesReg i x) :
      Effect i s ((s.writeV vF a).writeV x b)
  | drawRandom (x : Reg) (nn b : Byte) (h : i = .randomAnd x nn) : Effect i s (s.consumeRandom.writeV x b)
  | setPc (a : Word) (h : setsPc i) : Effect i s (s.writePc a)
  | skip (c : Bool) (h : setsPc i) : Effect i s (s.skipIf c)
  | push (nnn : Addr12) (h : i = .call nnn) (room : stackFull s.cfg.stackDepth s.stack = false) :
      Effect i s ({ s with stack := s.pc :: s.stack }.writePc (addrOf nnn))
  | pop (top : Word) (rest : List Word) (h : i = .ret) (hs : s.stack = top :: rest) :
      Effect i s ({ s with stack := rest }.writePc top)
  | underflow (h : i = .ret) (hs : s.stack = []) : Effect i s (s.takeFault .stackUnderflow (encode i))
  | overflow (nnn : Addr12) (h : i = .call nnn) (full : stackFull s.cfg.stackDepth s.stack = true) :
      Effect i s (s.takeFault .stackOverflow (encode i))
  | keyRange (x : Reg) (h : i = .skipKeyPressed x ∨ i = .skipKeyReleased x)
      (hx : 16 ≤ (s.readV x).toNat ∧ s.cfg.keyIndexPolicy = .fault) :
      Effect i s (s.takeFault .keyIndexRange (encode i))
  | setIndex (a : Word) (h : (∃ nnn, i = .loadIndex nnn) ∨ (∃ x, i = .addIndex x) ∨ ∃ x, i = .fontAddress x) :
      Effect i s (s.writeI a)
  | store (bs : List Byte) (h : bs.length = bytesStored i) : Effect i s (s.memWriteList s.dataBase bs)
  | load (x : Reg) (h : i = .loadBlock x) : Effect i s (s.loadRegs x s.dataBase)
  | setDelay (x : Reg) (h : i = .writeDelay x) : Effect i s (s.writeDt (s.readV x))
  | setSound (x : Reg) (h : i = .writeSound x) : Effect i s (s.writeSt (s.readV x))
  | clear (h : i = .clear) : Effect i s (s.writeFb FrameBuffer.unlit)
  | draw (x y : Reg) (n : Nibble) (h : i = .draw x y n) (f : FrameBuffer) (b : Byte) :
      Effect i s ((s.writeFb f).writeV vF b)

/-- The flag-writing shape, whichever order ALU_VF_ALIAS selects (R108). -/
theorem Effect.flagged (i : Instr) (s : State) (flag : Byte → Byte → Bool) (result : Byte → Byte → Byte) (x y : Reg)
    (hF : writesReg i vF) (h : writesReg i x) : Effect i s (s.flagged flag result x y) := by
  unfold State.flagged
  split
  · exact .writeFlagAndReg x _ _ hF h
  · exact .writeFlagAndReg x _ _ hF h

/-- Every instruction answers a next state, of one of the shapes. -/
theorem exec_effect (i : Instr) (s : State) : ∃ t, exec i s = .next t ∧ Effect i s t := by
  cases i with
  | clear => exact ⟨_, rfl, .clear rfl⟩
  | ret =>
    simp only [exec, execRet]
    split
    · rename_i top t hp
      obtain ⟨hs, ht⟩ := State.pop_some _ _ _ hp
      refine ⟨_, rfl, ?_⟩
      rw [ht]
      exact .pop top t.stack rfl hs
    · rename_i hp
      exact ⟨_, rfl, .underflow rfl ((State.pop_none_iff s).mp hp)⟩
  | jump nnn => exact ⟨_, rfl, .setPc _ trivial⟩
  | call nnn =>
    simp only [exec, execCall]
    split
    · rename_i t hp
      have room : stackFull s.cfg.stackDepth s.stack = false := by
        by_contra hc
        rw [(State.push_none_iff s s.pc).mpr (by simpa using hc)] at hp
        cases hp
      rw [State.push_some _ _ _ hp]
      exact ⟨_, rfl, .push nnn rfl room⟩
    · rename_i hp
      exact ⟨_, rfl, .overflow nnn rfl ((State.push_none_iff s _).mp hp)⟩
  | skipEqImm x nn => exact ⟨_, rfl, .skip _ trivial⟩
  | skipNeImm x nn => exact ⟨_, rfl, .skip _ trivial⟩
  | skipEqReg x y n => exact ⟨_, rfl, .skip _ trivial⟩
  | skipNeReg x y n => exact ⟨_, rfl, .skip _ trivial⟩
  | jumpOffset nnn => exact ⟨_, rfl, .setPc _ trivial⟩
  | loadImm x nn => exact ⟨_, rfl, .writeReg x _ rfl⟩
  | addImm x nn => exact ⟨_, rfl, .writeReg x _ rfl⟩
  | copy x y => exact ⟨_, rfl, .writeReg x _ rfl⟩
  | orReg x y => exact ⟨_, rfl, .writeReg x _ rfl⟩
  | andReg x y => exact ⟨_, rfl, .writeReg x _ rfl⟩
  | xorReg x y => exact ⟨_, rfl, .writeReg x _ rfl⟩
  | addReg x y => exact ⟨_, rfl, .writeFlagAndReg x _ _ (.inr rfl) (.inl rfl)⟩
  | sub x y => exact ⟨_, rfl, Effect.flagged _ s _ _ x y (.inr rfl) (.inl rfl)⟩
  | subn x y => exact ⟨_, rfl, Effect.flagged _ s _ _ x y (.inr rfl) (.inl rfl)⟩
  | shiftRight x y => exact ⟨_, rfl, Effect.flagged _ s _ _ x x (.inr rfl) (.inl rfl)⟩
  | shiftLeft x y => exact ⟨_, rfl, Effect.flagged _ s _ _ x x (.inr rfl) (.inl rfl)⟩
  | randomAnd x nn => exact ⟨_, rfl, .drawRandom x nn _ rfl⟩
  | draw x y n => exact ⟨_, rfl, .draw x y n rfl _ _⟩
  | loadIndex nnn => exact ⟨_, rfl, .setIndex _ (.inl ⟨nnn, rfl⟩)⟩
  | addIndex x => exact ⟨_, rfl, .setIndex _ (.inr (.inl ⟨x, rfl⟩))⟩
  | fontAddress x => exact ⟨_, rfl, .setIndex _ (.inr (.inr ⟨x, rfl⟩))⟩
  | bcdStore x => exact ⟨_, rfl, .store _ rfl⟩
  | storeBlock x => exact ⟨_, rfl, .store _ (State.regsUpTo_length s x)⟩
  | loadBlock x => exact ⟨_, rfl, .load x rfl⟩
  | readDelay x => exact ⟨_, rfl, .writeReg x _ rfl⟩
  | writeDelay x => exact ⟨_, rfl, .setDelay x rfl⟩
  | writeSound x => exact ⟨_, rfl, .setSound x rfl⟩
  | awaitKey x =>
    simp only [exec, execAwaitKey]
    split
    · exact ⟨_, rfl, .writeReg x _ rfl⟩
    · exact ⟨_, rfl, .setPc _ trivial⟩
  | skipKeyPressed x =>
    simp only [exec, execSkipKeyPressed]
    split
    · exact ⟨_, rfl, .skip _ trivial⟩
    · rename_i hp
      exact ⟨_, rfl, .keyRange x (.inl rfl) ((State.keyPressed_none_iff s _).mp hp)⟩
  | skipKeyReleased x =>
    simp only [exec, execSkipKeyReleased]
    split
    · exact ⟨_, rfl, .skip _ trivial⟩
    · rename_i hp
      exact ⟨_, rfl, .keyRange x (.inr rfl) ((State.keyPressed_none_iff s _).mp hp)⟩

/-- The shape of a known next state. -/
theorem effect_of_exec (i : Instr) (s t : State) (h : exec i s = .next t) : Effect i s t := by
  obtain ⟨u, hu, he⟩ := exec_effect i s
  rw [h] at hu
  injection hu with hu
  exact hu ▸ he

end Sys2Proof.Machine
end

