-- ==== Sys2Proof/Laws/PerInstr.lean ====
section
/-! SUPPORT. One lemma per instruction: its word, in the table's own form (DECODE_5_9 = strict), has the fixed bits of
its row of spec/opcode_table.json (R84). -/

namespace Sys2Proof.Laws.EncodesRow

/-- The encoded word of a well-formed instruction matches its opcode-table row. -/
def Statement (i : Instr) : Prop := i.wellFormed .strict = true → i.row.matchesWord (encode i) = true

/-- A word with group selector g has the fixed bits of a row of mask 0xF000. -/
theorem rowG (w : Word) (g : Nibble) (h : fieldG w = g) : w &&& 0xF000#16 = g ++ 0x000#12 := by
  rw [and_maskG, h]

/-- The same for mask 0xF00F and the low nibble n. -/
theorem rowGN (w : Word) (g n : Nibble) (h : fieldG w = g) (hn : fieldN w = n) :
    w &&& 0xF00F#16 = g ++ (0x00#8 ++ n) := by rw [and_maskGN, h, hn]

/-- The same for mask 0xF0FF and the low byte nn. -/
theorem rowGNN (w : Word) (g : Nibble) (nn : Byte) (h : fieldG w = g) (hn : fieldNN w = nn) :
    w &&& 0xF0FF#16 = g ++ (0x0#4 ++ nn) := by rw [and_maskGNN, h, hn]

/-- A word whose masked bits are the row's value matches the row. -/
theorem matches_of_bits (r : OpcodeRow) (w : Word) (h : w &&& r.mask = r.value) : r.matchesWord w = true := by
  simpa [OpcodeRow.matchesWord] using h

theorem clear : Statement .clear := fun _ => rfl

theorem ret : Statement .ret := fun _ => rfl

theorem jump (nnn : Addr12) : Statement (.jump nnn) := fun _ =>
  matches_of_bits _ _ (rowG _ _ (fieldG_formatNNN _ _))

theorem call (nnn : Addr12) : Statement (.call nnn) := fun _ =>
  matches_of_bits _ _ (rowG _ _ (fieldG_formatNNN _ _))

theorem skipEqImm (x : Reg) (nn : Byte) : Statement (.skipEqImm x nn) := fun _ =>
  matches_of_bits _ _ (rowG _ _ (fieldG_formatXNN _ _ _))

theorem skipNeImm (x : Reg) (nn : Byte) : Statement (.skipNeImm x nn) := fun _ =>
  matches_of_bits _ _ (rowG _ _ (fieldG_formatXNN _ _ _))

theorem skipEqReg (x y : Reg) (n : Nibble) : Statement (.skipEqReg x y n) := fun h => by
  obtain rfl : n = 0#4 := by simpa [Instr.wellFormed, lowNibbleAdmitted] using h
  exact matches_of_bits _ _ (rowGN _ _ _ (fieldG_formatXYN _ _ _ _) (fieldN_formatXYN _ _ _ _))

theorem loadImm (x : Reg) (nn : Byte) : Statement (.loadImm x nn) := fun _ =>
  matches_of_bits _ _ (rowG _ _ (fieldG_formatXNN _ _ _))

theorem addImm (x : Reg) (nn : Byte) : Statement (.addImm x nn) := fun _ =>
  matches_of_bits _ _ (rowG _ _ (fieldG_formatXNN _ _ _))

theorem copy (x y : Reg) : Statement (.copy x y) := fun _ =>
  matches_of_bits _ _ (rowGN _ _ _ (fieldG_formatXYN _ _ _ _) (fieldN_formatXYN _ _ _ _))

theorem orReg (x y : Reg) : Statement (.orReg x y) := fun _ =>
  matches_of_bits _ _ (rowGN _ _ _ (fieldG_formatXYN _ _ _ _) (fieldN_formatXYN _ _ _ _))

theorem andReg (x y : Reg) : Statement (.andReg x y) := fun _ =>
  matches_of_bits _ _ (rowGN _ _ _ (fieldG_formatXYN _ _ _ _) (fieldN_formatXYN _ _ _ _))

theorem xorReg (x y : Reg) : Statement (.xorReg x y) := fun _ =>
  matches_of_bits _ _ (rowGN _ _ _ (fieldG_formatXYN _ _ _ _) (fieldN_formatXYN _ _ _ _))

theorem addReg (x y : Reg) : Statement (.addReg x y) := fun _ =>
  matches_of_bits _ _ (rowGN _ _ _ (fieldG_formatXYN _ _ _ _) (fieldN_formatXYN _ _ _ _))

theorem sub (x y : Reg) : Statement (.sub x y) := fun _ =>
  matches_of_bits _ _ (rowGN _ _ _ (fieldG_formatXYN _ _ _ _) (fieldN_formatXYN _ _ _ _))

theorem shiftRight (x y : Reg) : Statement (.shiftRight x y) := fun _ =>
  matches_of_bits _ _ (rowGN _ _ _ (fieldG_formatXYN _ _ _ _) (fieldN_formatXYN _ _ _ _))

theorem subn (x y : Reg) : Statement (.subn x y) := fun _ =>
  matches_of_bits _ _ (rowGN _ _ _ (fieldG_formatXYN _ _ _ _) (fieldN_formatXYN _ _ _ _))

theorem shiftLeft (x y : Reg) : Statement (.shiftLeft x y) := fun _ =>
  matches_of_bits _ _ (rowGN _ _ _ (fieldG_formatXYN _ _ _ _) (fieldN_formatXYN _ _ _ _))

theorem skipNeReg (x y : Reg) (n : Nibble) : Statement (.skipNeReg x y n) := fun h => by
  obtain rfl : n = 0#4 := by simpa [Instr.wellFormed, lowNibbleAdmitted] using h
  exact matches_of_bits _ _ (rowGN _ _ _ (fieldG_formatXYN _ _ _ _) (fieldN_formatXYN _ _ _ _))

theorem loadIndex (nnn : Addr12) : Statement (.loadIndex nnn) := fun _ =>
  matches_of_bits _ _ (rowG _ _ (fieldG_formatNNN _ _))

theorem jumpOffset (nnn : Addr12) : Statement (.jumpOffset nnn) := fun _ =>
  matches_of_bits _ _ (rowG _ _ (fieldG_formatNNN _ _))

theorem randomAnd (x : Reg) (nn : Byte) : Statement (.randomAnd x nn) := fun _ =>
  matches_of_bits _ _ (rowG _ _ (fieldG_formatXNN _ _ _))

theorem draw (x y : Reg) (n : Nibble) : Statement (.draw x y n) := fun _ =>
  matches_of_bits _ _ (rowG _ _ (fieldG_formatXYN _ _ _ _))

theorem skipKeyPressed (x : Reg) : Statement (.skipKeyPressed x) := fun _ =>
  matches_of_bits _ _ (rowGNN _ _ _ (fieldG_formatXNN _ _ _) (fieldNN_formatXNN _ _ _))

theorem skipKeyReleased (x : Reg) : Statement (.skipKeyReleased x) := fun _ =>
  matches_of_bits _ _ (rowGNN _ _ _ (fieldG_formatXNN _ _ _) (fieldNN_formatXNN _ _ _))

theorem readDelay (x : Reg) : Statement (.readDelay x) := fun _ =>
  matches_of_bits _ _ (rowGNN _ _ _ (fieldG_formatXNN _ _ _) (fieldNN_formatXNN _ _ _))

theorem awaitKey (x : Reg) : Statement (.awaitKey x) := fun _ =>
  matches_of_bits _ _ (rowGNN _ _ _ (fieldG_formatXNN _ _ _) (fieldNN_formatXNN _ _ _))

theorem writeDelay (x : Reg) : Statement (.writeDelay x) := fun _ =>
  matches_of_bits _ _ (rowGNN _ _ _ (fieldG_formatXNN _ _ _) (fieldNN_formatXNN _ _ _))

theorem writeSound (x : Reg) : Statement (.writeSound x) := fun _ =>
  matches_of_bits _ _ (rowGNN _ _ _ (fieldG_formatXNN _ _ _) (fieldNN_formatXNN _ _ _))

theorem addIndex (x : Reg) : Statement (.addIndex x) := fun _ =>
  matches_of_bits _ _ (rowGNN _ _ _ (fieldG_formatXNN _ _ _) (fieldNN_formatXNN _ _ _))

theorem fontAddress (x : Reg) : Statement (.fontAddress x) := fun _ =>
  matches_of_bits _ _ (rowGNN _ _ _ (fieldG_formatXNN _ _ _) (fieldNN_formatXNN _ _ _))

theorem bcdStore (x : Reg) : Statement (.bcdStore x) := fun _ =>
  matches_of_bits _ _ (rowGNN _ _ _ (fieldG_formatXNN _ _ _) (fieldNN_formatXNN _ _ _))

theorem storeBlock (x : Reg) : Statement (.storeBlock x) := fun _ =>
  matches_of_bits _ _ (rowGNN _ _ _ (fieldG_formatXNN _ _ _) (fieldNN_formatXNN _ _ _))

theorem loadBlock (x : Reg) : Statement (.loadBlock x) := fun _ =>
  matches_of_bits _ _ (rowGNN _ _ _ (fieldG_formatXNN _ _ _) (fieldNN_formatXNN _ _ _))

end Sys2Proof.Laws.EncodesRow
end

