-- ==== Sys2Proof/Laws/Step.lean ====
section
/-! SUPPORT. What a step can do, said once. -/

namespace Sys2Proof.Machine

/-- What the word fetched in s leads to: the effect of its instruction at the advanced PC, or nothing more than the
advanced PC (R82, R85, R89). -/
inductive Executed (s : State) : State → Prop where
  | instr (i : Instr) (t : State) (hd : decode s.cfg.decode59 s.fetchWord = .ok i) (he : exec i s.advancePc = .next t) :
      Executed s t
  | unmatched (e : DecodeReject) (hd : decode s.cfg.decode59 s.fetchWord = .error e) : Executed s s.advancePc

/-- A step of a running core executes its word and completes the cycle (R88). -/
theorem step_of_running (s : State) (h : s.status = .running) :
    ∃ t, step s = .next (completeCycle t) ∧ Executed s t := by
  cases hd : decode s.cfg.decode59 s.fetchWord with
  | ok i =>
    obtain ⟨t, ht, -⟩ := exec_effect i s.advancePc
    exact ⟨t, by simp [step, cycleStep, h, executeWord, hd, ht], .instr i t hd ht⟩
  | error e => exact ⟨_, by simp [step, cycleStep, h, executeWord, hd], .unmatched e hd⟩

/-- Inversion: a step that answers a next state started on a running core and executed its word (R88, R91). -/
theorem step_next (s t : State) (h : step s = .next t) :
    s.status = .running ∧ ∃ u, Executed s u ∧ t = completeCycle u := by
  cases hs : s.status with
  | running =>
    obtain ⟨u, hu, he⟩ := step_of_running s hs
    rw [h] at hu
    injection hu with hu
    exact ⟨rfl, u, he, hu⟩
  | faulted r => simp [step, cycleStep, hs] at h

/-- The end of a cycle ticks a running core and leaves a faulted one (R88, R144). -/
theorem completeCycle_running (t : State) (h : t.status = .running) : completeCycle t = t.tick := by
  simp [completeCycle, h]

theorem completeCycle_faulted (t : State) (h : t.status ≠ .running) : completeCycle t = t := by
  unfold completeCycle; split <;> simp_all

end Sys2Proof.Machine
end

