-- ==== Sys2Proof/Tests/Slice0.lean ====
section
/-! SUPPORT. Tests of one step each; the expected values are those of spec/95_test_vectors.md, whose vector ids stand
in the names and docstrings. Then a witness for the hypotheses of every statement that has some. -/

namespace Sys2Proof.Tests

open Sys2Proof Sys2Proof.Machine

/-! ## Helpers -/

/-- The reset state with some registers set. -/
def regs (l : List (Reg × Byte)) : State := l.foldl (fun s p => s.writeV p.1 p.2) State.reset

/-- The reset state with I set and some bytes of memory stored at it. -/
def dataAt (a : Word) (bytes : List Byte) (l : List (Reg × Byte)) : State :=
  (regs l).memWriteList a.toNat bytes |>.writeI a

/-- The state under other implementation parameters. -/
def under (c : Config) (s : State) : State := { s with cfg := c }

def sequentialCfg : Config := { Config.default with aluVfAlias := .sequential }
def ignoreNCfg : Config := { Config.default with decode59 := .ignoreN }
def maskCfg : Config := { Config.default with keyIndexPolicy := .mask }
def notPressedCfg : Config := { Config.default with keyIndexPolicy := .notPressed }
def depthCfg (n : Nat) : Config := { Config.default with stackDepth := .bounded n }

/-- The state with some keys pressed. -/
def pressing (l : List (Fin 16)) (s : State) : State := { s with key := l.foldl (fun v k => v.set k.val true) s.key }

/-- The outcome is a next state with the property. -/
def answers (o : Host.Outcome State Fault Refusal) (p : State → Bool) : Bool :=
  match o with
  | .next t => p t
  | .fault _ => false
  | .refused _ => false

theorem next_of_answers {o : Host.Outcome State Fault Refusal} {p : State → Bool} (h : answers o p = true) :
    ∃ t, o = .next t ∧ p t = true := by
  unfold answers at h
  split at h
  · exact ⟨_, rfl, h⟩
  · cases h
  · cases h

/-- One cycle on a word stored at PC answers a next state with the property. -/
def after (s : State) (w : Word) (p : State → Bool) : Bool := answers (step (s.placeWord w)) p

/-- The lit cells among the listed ones. -/
def lit (t : State) (l : List (Nat × Nat)) : List (Nat × Nat) := l.filter fun c => t.fb.cell c.1 c.2

/-! ## Well-formedness: the one check (R83) -/

theorem test_wellFormed_refuses_skipEqReg_low_nibble : Instr.wellFormed .strict (.skipEqReg 1 2 1) = false := by decide

theorem test_wellFormed_refuses_skipNeReg_low_nibble : Instr.wellFormed .strict (.skipNeReg 1 2 15) = false := by decide

theorem test_wellFormed_admits_low_nibble_under_ignore_n :
    Instr.wellFormed .ignoreN (.skipEqReg 1 2 1) = true ∧ Instr.wellFormed .ignoreN (.skipNeReg 1 2 15) = true := by decide

/-! ## Decoding: one word per constructor, written out from the encodings of R94 -/

theorem test_decode_display : decode .strict 0x00E0 = .ok .clear ∧ decode .strict 0xD12A = .ok (.draw 1 2 10) := by decide

theorem test_decode_control_flow :
    decode .strict 0x00EE = .ok .ret ∧ decode .strict 0x12A4 = .ok (.jump 0x2A4) ∧
    decode .strict 0x2ABC = .ok (.call 0xABC) ∧ decode .strict 0x3310 = .ok (.skipEqImm 3 0x10) ∧
    decode .strict 0x4310 = .ok (.skipNeImm 3 0x10) ∧ decode .strict 0x5120 = .ok (.skipEqReg 1 2 0) ∧
    decode .strict 0x9120 = .ok (.skipNeReg 1 2 0) ∧ decode .strict 0xB521 = .ok (.jumpOffset 0x521) := by decide

theorem test_decode_alu :
    decode .strict 0x6A5C = .ok (.loadImm 10 0x5C) ∧ decode .strict 0x7201 = .ok (.addImm 2 0x01) ∧
    decode .strict 0x8340 = .ok (.copy 3 4) ∧ decode .strict 0x8121 = .ok (.orReg 1 2) ∧
    decode .strict 0x8122 = .ok (.andReg 1 2) ∧ decode .strict 0x8123 = .ok (.xorReg 1 2) ∧
    decode .strict 0x8AB4 = .ok (.addReg 10 11) ∧ decode .strict 0x8F15 = .ok (.sub 15 1) ∧
    decode .strict 0x8566 = .ok (.shiftRight 5 6) ∧ decode .strict 0x8127 = .ok (.subn 1 2) ∧
    decode .strict 0x850E = .ok (.shiftLeft 5 0) ∧ decode .strict 0xC10F = .ok (.randomAnd 1 0x0F) := by decide

theorem test_decode_index_memory :
    decode .strict 0xA300 = .ok (.loadIndex 0x300) ∧ decode .strict 0xF21E = .ok (.addIndex 2) ∧
    decode .strict 0xF129 = .ok (.fontAddress 1) ∧ decode .strict 0xF133 = .ok (.bcdStore 1) ∧
    decode .strict 0xF255 = .ok (.storeBlock 2) ∧ decode .strict 0xF265 = .ok (.loadBlock 2) := by decide

theorem test_decode_timers_keys :
    decode .strict 0xF307 = .ok (.readDelay 3) ∧ decode .strict 0xF30A = .ok (.awaitKey 3) ∧
    decode .strict 0xF115 = .ok (.writeDelay 1) ∧ decode .strict 0xF118 = .ok (.writeSound 1) ∧
    decode .strict 0xE29E = .ok (.skipKeyPressed 2) ∧ decode .strict 0xE2A1 = .ok (.skipKeyReleased 2) := by decide

/-- The unmatched words of vectors E-02 to E-10. -/
theorem test_decode_rejects :
    decode .strict 0x0000 = .error (.group0 0x0000) ∧ decode .strict 0x01E0 = .error (.group0 0x01E0) ∧
    decode .strict 0x5121 = .error (.group5 0x5121) ∧ decode .strict 0x8128 = .error (.group8 0x8128) ∧
    decode .strict 0x912F = .error (.group9 0x912F) ∧ decode .strict 0xE0FF = .error (.groupE 0xE0FF) ∧
    decode .strict 0xF1FF = .error (.groupF 0xF1FF) ∧ decodeBytes .strict [0x00] = .error .truncated := by decide

theorem test_decodeTableWord : decodeTableWord 16 0x8AB4 = some (.addReg 10 11) ∧ decodeTableWord 16 0 = none := by decide

/-! ## Fetch and dispatch (vectors E) -/

/-- E-01: the fetch wraps at 0xFFF; word 0x6012. -/
theorem test_E01_fetch_wraps :
    after (State.reset.writePc 0x0FFF) 0x6012 (fun t => t.readV 0 == 0x12 && t.pc == 0x1001 && t.memRead 0 == 0x12) = true := by
  decide

/-- E-02: the unmatched word 0x0000 is a no-op that still ticks. -/
theorem test_E02_no_op_ticks : after { State.reset with dt := 3 } 0x0000 (fun t => t.pc == 0x202 && t.dt == 2) = true := by
  decide

/-- E-04, E-05: 5121 with V1 = V2. -/
theorem test_E04_E05_5121 :
    after (regs [(1, 7), (2, 7)]) 0x5121 (fun t => t.pc == 0x202) = true ∧
    after (under ignoreNCfg (regs [(1, 7), (2, 7)])) 0x5121 (fun t => t.pc == 0x204) = true := by decide

/-- E-06, E-07: 912F with V1 ≠ V2. -/
theorem test_E06_E07_912F :
    after (regs [(1, 7), (2, 8)]) 0x912F (fun t => t.pc == 0x202) = true ∧
    after (under ignoreNCfg (regs [(1, 7), (2, 8)])) 0x912F (fun t => t.pc == 0x204) = true := by decide

/-! ## Display (vectors D) -/

/-- D-01. -/
theorem test_D01_clear :
    after { State.reset with fb := (State.reset.fb.toggle 5 7).toggle 63 31, dt := 5, st := 5 } 0x00E0
      (fun t => decide (t.fb = FrameBuffer.unlit) && t.dt == 4 && t.st == 4) = true := by decide

/-- D-04: right clip. D-05: bottom clip. -/
theorem test_D04_D05_clip :
    after (dataAt 0x300 [0xFF] [(0, 62)]) 0xD011
      (fun t => lit t [(61, 0), (62, 0), (63, 0), (0, 0), (0, 1)] == [(62, 0), (63, 0)] && t.readV 15 == 0) = true ∧
    after (dataAt 0x300 [0x80, 0x80, 0x80] [(1, 31)]) 0xD013
      (fun t => lit t [(0, 30), (0, 31), (0, 0), (0, 1), (1, 31)] == [(0, 31)]) = true := by decide

/-- D-06: collision. D-08: x = F, the column is read before VF is reset. -/
theorem test_D06_D08_collision_and_latch :
    after { dataAt 0x300 [0xC0] [] with fb := State.reset.fb.toggle 0 0 } 0xD011
      (fun t => lit t [(0, 0), (1, 0), (2, 0)] == [(1, 0)] && t.readV 15 == 1) = true ∧
    after (dataAt 0x300 [0x80] [(15, 0x0A), (1, 3)]) 0xDF11
      (fun t => lit t [(10, 3), (0, 3), (11, 3)] == [(10, 3)] && t.readV 15 == 0) = true := by decide

/-! ## Control flow (vectors C) -/

/-- C-01. -/
theorem test_C01_return_underflow :
    after State.reset 0x00EE (fun t => decide (t.status = .faulted ⟨.stackUnderflow, 0x200, 0x00EE⟩) && t.pc == 0x200) = true := by
  decide

/-- C-02. -/
theorem test_C02_return :
    after { State.reset with stack := [0x252] } 0x00EE (fun t => t.pc == 0x252 && t.stack == []) = true := by decide

/-- C-03. -/
theorem test_C03_jump : after State.reset 0x12A4 (fun t => t.pc == 0x2A4) = true := by decide

/-- C-05. -/
theorem test_C05_call :
    after (State.reset.writePc 0x24E) 0x2ABC (fun t => t.pc == 0xABC && t.stack == [0x250]) = true := by decide

/-- C-06. -/
theorem test_C06_call_overflow :
    after (under (depthCfg 2) { State.reset with stack := [0x300, 0x400] }) 0x2ABC
      (fun t => decide (t.status = .faulted ⟨.stackOverflow, 0x200, 0x2ABC⟩) && t.stack == [0x300, 0x400]) = true := by decide

/-- C-07, C-08, and C-18: a skip at 0xFFE. -/
theorem test_C07_C08_C18_skip_eq_imm :
    after (regs [(3, 0x10)]) 0x3310 (fun t => t.pc == 0x204) = true ∧
    after (regs [(3, 0x11)]) 0x3310 (fun t => t.pc == 0x202) = true ∧
    after ((regs [(3, 0x10)]).writePc 0xFFE) 0x3310 (fun t => t.pc == 0x1002) = true := by decide

/-- C-09, C-10. -/
theorem test_C09_C10_skip_ne_imm :
    after (regs [(3, 0x10)]) 0x4310 (fun t => t.pc == 0x202) = true ∧
    after (regs [(3, 0x11)]) 0x4310 (fun t => t.pc == 0x204) = true := by decide

/-- C-11, and its not-taken form. -/
theorem test_C11_skip_eq_reg :
    after (regs [(1, 7), (2, 7)]) 0x5120 (fun t => t.pc == 0x204) = true ∧
    after (regs [(1, 7), (2, 8)]) 0x5120 (fun t => t.pc == 0x202) = true := by decide

/-- C-13, C-14. -/
theorem test_C13_C14_skip_ne_reg :
    after (regs [(1, 7), (2, 8)]) 0x9120 (fun t => t.pc == 0x204) = true ∧
    after (regs [(1, 7)]) 0x9110 (fun t => t.pc == 0x202) = true := by decide

/-- C-16: the largest target. C-17: the x field is ignored. -/
theorem test_C16_C17_jump_offset :
    after (regs [(0, 0xFF)]) 0xBFFF (fun t => t.pc == 0x10FE) = true ∧
    after (regs [(0, 0x01), (5, 0x40)]) 0xB521 (fun t => t.pc == 0x522) = true := by decide

/-! ## ALU (vectors A) -/

/-- A-01. -/
theorem test_A01_load_imm : after State.reset 0x6A5C (fun t => t.readV 10 == 0x5C && t.pc == 0x202) = true := by decide

/-- A-02. -/
theorem test_A02_add_imm :
    after (regs [(2, 0xFF), (15, 7)]) 0x7201 (fun t => t.readV 2 == 0 && t.readV 15 == 7) = true := by decide

/-- A-04. -/
theorem test_A04_copy : after (regs [(3, 0x11), (4, 0x9C)]) 0x8340 (fun t => t.readV 3 == 0x9C && t.readV 4 == 0x9C) = true := by
  decide

/-- A-05, A-06, A-07. -/
theorem test_A05_A06_A07_logic :
    after (regs [(1, 0xF0), (2, 0x0F), (15, 0x33)]) 0x8121 (fun t => t.readV 1 == 0xFF && t.readV 15 == 0x33) = true ∧
    after (regs [(1, 0xF0), (2, 0x3C)]) 0x8122 (fun t => t.readV 1 == 0x30) = true ∧
    after (regs [(1, 0xF0), (2, 0x3C)]) 0x8123 (fun t => t.readV 1 == 0xCC) = true := by decide

/-- A-09, A-10. -/
theorem test_A09_A10_add_reg :
    after (regs [(1, 0xC8), (2, 0x64)]) 0x8124 (fun t => t.readV 1 == 0x2C && t.readV 15 == 1) = true ∧
    after (regs [(1, 0x80), (2, 0x7F), (15, 1)]) 0x8124 (fun t => t.readV 1 == 0xFF && t.readV 15 == 0) = true := by decide

/-- A-13 (x = F), A-14 (y = F), under both settings of ALU_VF_ALIAS. -/
theorem test_A13_A14_add_reg_alias :
    (after (regs [(15, 0x80), (1, 0x90)]) 0x8F14 (fun t => t.readV 15 == 0x10) = true ∧
      after (regs [(1, 5), (15, 0xFF)]) 0x81F4 (fun t => t.readV 1 == 4 && t.readV 15 == 1) = true) ∧
    after (under sequentialCfg (regs [(1, 5), (15, 0xFF)])) 0x81F4 (fun t => t.readV 1 == 4 && t.readV 15 == 1) = true := by
  decide

/-- A-15, A-16. -/
theorem test_A15_A16_sub :
    after (regs [(1, 5), (2, 7), (15, 9)]) 0x8125 (fun t => t.readV 1 == 0xFE && t.readV 15 == 0) = true ∧
    after (regs [(1, 7), (2, 7)]) 0x8125 (fun t => t.readV 1 == 0 && t.readV 15 == 1) = true := by decide

/-- A-18 to A-21. -/
theorem test_A18_A21_sub_alias :
    (after (regs [(15, 0x10), (1, 3)]) 0x8F15 (fun t => t.readV 15 == 0x0D) = true ∧
      after (under sequentialCfg (regs [(15, 0x10), (1, 3)])) 0x8F15 (fun t => t.readV 15 == 0xFE) = true) ∧
    after (regs [(1, 5), (15, 2)]) 0x81F5 (fun t => t.readV 1 == 3 && t.readV 15 == 1) = true ∧
    after (under sequentialCfg (regs [(1, 5), (15, 2)])) 0x81F5 (fun t => t.readV 1 == 4 && t.readV 15 == 1) = true := by decide

/-- A-22, A-23. -/
theorem test_A22_A23_shift_right :
    after (regs [(5, 0x81)]) 0x8506 (fun t => t.readV 5 == 0x40 && t.readV 15 == 1) = true ∧
    after (regs [(5, 2), (6, 0xFF)]) 0x8566 (fun t => t.readV 5 == 1 && t.readV 15 == 0) = true := by decide

/-- A-24, A-25. -/
theorem test_A24_A25_shift_right_alias :
    after (regs [(15, 3)]) 0x8FF6 (fun t => t.readV 15 == 1) = true ∧
    after (under sequentialCfg (regs [(15, 3)])) 0x8FF6 (fun t => t.readV 15 == 0) = true := by decide

/-- A-26, A-27. -/
theorem test_A26_A27_subn :
    after (regs [(1, 5), (2, 7)]) 0x8127 (fun t => t.readV 1 == 2 && t.readV 15 == 1) = true ∧
    after (regs [(1, 1)]) 0x8127 (fun t => t.readV 1 == 0xFF && t.readV 15 == 0) = true := by decide

/-- A-28 to A-31. -/
theorem test_A28_A31_subn_alias :
    (after (regs [(15, 2), (1, 7)]) 0x8F17 (fun t => t.readV 15 == 5) = true ∧
      after (under sequentialCfg (regs [(15, 2), (1, 7)])) 0x8F17 (fun t => t.readV 15 == 6) = true) ∧
    after (regs [(1, 3), (15, 9)]) 0x81F7 (fun t => t.readV 1 == 6 && t.readV 15 == 1) = true ∧
    after (under sequentialCfg (regs [(1, 3), (15, 9)])) 0x81F7 (fun t => t.readV 1 == 0xFE && t.readV 15 == 1) = true := by decide

/-- A-32. -/
theorem test_A32_shift_left : after (regs [(5, 0x81)]) 0x850E (fun t => t.readV 5 == 2 && t.readV 15 == 1) = true := by decide

/-- A-33, A-34. -/
theorem test_A33_A34_shift_left_alias :
    after (regs [(15, 0xC1)]) 0x8FFE (fun t => t.readV 15 == 0x82) = true ∧
    after (under sequentialCfg (regs [(15, 0xC1)])) 0x8FFE (fun t => t.readV 15 == 2) = true := by decide

/-- A-35, the drawn byte named by the provider. -/
theorem test_A35_random_and :
    after { State.reset with provider := [0xA7, 0x3C] } 0xC10F (fun t => t.readV 1 == 7 && t.provider == [0x3C]) = true := by decide

/-- A-36: nn = 0 gives 0 whatever byte is drawn, here a free one. -/
theorem test_A36_random_and_zero (t : State) (h : exec (.randomAnd 1 0) State.reset = .next t) : t.readV 1 = 0 := by
  cases h
  simp

/-! ## Index register and memory (vectors M) -/

/-- M-01. -/
theorem test_M01_load_index : after State.reset 0xA300 (fun t => t.i == 0x300) = true := by decide

/-- M-03, M-04. -/
theorem test_M03_M04_add_index :
    after ((regs [(1, 1)]).writeI 0xFFF) 0xF11E (fun t => t.i == 0x1000 && t.readV 15 == 0) = true ∧
    after ((regs [(1, 0x20)]).writeI 0xFFF0) 0xF11E (fun t => t.i == 0x10 && t.readV 15 == 0) = true := by decide

/-- M-05, M-06. -/
theorem test_M05_M06_font_address :
    after (regs [(1, 0x0A)]) 0xF129 (fun t => t.i == 0x82) = true ∧
    after (regs [(1, 0xFF)]) 0xF129 (fun t => t.i == 0x54B) = true := by decide

/-- M-07. -/
theorem test_M07_bcd_store :
    after ((dataAt 0x303 [0xEE] [(1, 123)]).writeI 0x300) 0xF133
      (fun t => [0x300, 0x301, 0x302, 0x303].map t.memRead == [1, 2, 3, 0xEE] && t.i == 0x300) = true := by decide

/-- M-10: the addresses wrap. -/
theorem test_M10_bcd_store_wraps :
    after (dataAt 0xFFE [] [(1, 254)]) 0xF133 (fun t => [0xFFE, 0xFFF, 0x000, 0x001].map t.memRead == [2, 5, 4, 0]) = true := by
  decide

/-- M-11. -/
theorem test_M11_store_block :
    after (dataAt 0x300 [] [(0, 1), (1, 2), (2, 3), (3, 9)]) 0xF255
      (fun t => [0x300, 0x301, 0x302, 0x303].map t.memRead == [1, 2, 3, 0] && t.i == 0x300) = true := by decide

/-- M-13. -/
theorem test_M13_load_block :
    after (dataAt 0x300 [1, 2, 3] [(3, 0x77)]) 0xF265
      (fun t => [0, 1, 2, 3].map t.readV == [1, 2, 3, 0x77] && t.i == 0x300) = true := by decide

/-! ## Timers and keys (vectors T) -/

/-- T-01. -/
theorem test_T01_read_delay :
    after { State.reset with dt := 0x20 } 0xF307 (fun t => t.readV 3 == 0x20 && t.dt == 0x1F) = true := by decide

/-- T-02, T-03. -/
theorem test_T02_T03_write_delay :
    after (regs [(1, 5)]) 0xF115 (fun t => t.dt == 4 && t.st == 0) = true ∧
    after { State.reset with dt := 9 } 0xF115 (fun t => t.dt == 0) = true := by decide

/-- T-04, T-05. -/
theorem test_T04_T05_write_sound :
    after (regs [(1, 1)]) 0xF118 (fun t => t.st == 0 && t.dt == 0) = true ∧
    after (regs [(1, 0x3C)]) 0xF118 (fun t => t.st == 59) = true := by decide

/-- T-06, T-07. -/
theorem test_T06_T07_skip_key_pressed :
    after (pressing [5] (regs [(2, 5)])) 0xE29E (fun t => t.pc == 0x204) = true ∧
    after (regs [(2, 5)]) 0xE29E (fun t => t.pc == 0x202) = true := by decide

/-- T-08, T-09. -/
theorem test_T08_T09_skip_key_released :
    after (regs [(2, 5)]) 0xE2A1 (fun t => t.pc == 0x204) = true ∧
    after (pressing [5] (regs [(2, 5)])) 0xE2A1 (fun t => t.pc == 0x202) = true := by decide

/-- T-10: the fault, with no tick. T-11, T-12: the other two policies. -/
theorem test_T10_T11_T12_key_index_policy :
    after { pressing [5] (regs [(2, 0x15)]) with dt := 3 } 0xE29E
      (fun t => decide (t.status = .faulted ⟨.keyIndexRange, 0x200, 0xE29E⟩) && t.pc == 0x200 && t.dt == 3) = true ∧
    after (under maskCfg (pressing [5] (regs [(2, 0x15)]))) 0xE29E (fun t => t.pc == 0x204) = true ∧
    after (under notPressedCfg (pressing [5] (regs [(2, 0x15)]))) 0xE2A1 (fun t => t.pc == 0x204) = true := by decide

/-- T-13, T-14, and T-15: x = F writes VF. -/
theorem test_T13_T14_T15_await_key :
    after { State.reset with dt := 3 } 0xF30A (fun t => t.pc == 0x200 && t.dt == 2 && t.readV 3 == 0) = true ∧
    after (pressing [7, 0xC] State.reset) 0xF30A (fun t => t.pc == 0x202 && t.readV 3 == 7) = true ∧
    after (pressing [0] (regs [(15, 9)])) 0xFF0A (fun t => t.pc == 0x202 && t.readV 15 == 0) = true := by decide

/-! ## The fault and the halt (vector X-01), a placed word -/

/-- The core after X-01's first cycle. -/
def faultedCore : State :=
  { State.reset with dt := 2, st := 2, status := .faulted ⟨.stackUnderflow, 0x200, 0x00EE⟩ }

/-- X-01's second cycle. -/
theorem test_X01_halted : cycle faultedCore = (faultedCore, .halted ⟨.stackUnderflow, 0x200, 0x00EE⟩) := rfl

theorem test_withFetchWord_runs_the_word :
    answers (step (State.reset.withFetchWord 16 0x6A5C)) (fun t => t.readV 10 == 0x5C && t.pc == 0x202) = true := by
  decide

/-! ## Witnesses: concrete inputs that meet the hypotheses of each statement, at the ends of their ranges -/

/-- A running core about to run a word. -/
def about (w : Word) (s : State) : State := s.placeWord w

theorem witness_well_formed : (Instr.skipEqReg 1 2 0).wellFormed .strict = true ∧ (Instr.skipNeReg 15 0 15).wellFormed .ignoreN = true := by
  decide

theorem witness_decodes : decode .strict 0x8FFE = .ok (.shiftLeft 15 15) ∧ decode .ignoreN 0x912F = .ok (.skipNeReg 1 2 15) := by
  decide

theorem witness_row_matches : (Instr.sub 0 0).row.matchesWord 0x8FF5 = true := by decide

theorem witness_pc_at_the_last_location : (State.reset.writePc 0x0FFF).pc.toNat % 4096 = 0xFFF ∧
    (State.reset.writePc 0xFFFF).pc.toNat % 4096 = 0xFFF := by decide

/-- StepRunsTheDecodedInstruction: a word that completes and one that faults. -/
theorem witness_decoded_word_at_pc :
    ((about 0x00E0 State.reset).status = .running ∧
      decode (about 0x00E0 State.reset).cfg.decode59 (about 0x00E0 State.reset).fetchWord = .ok .clear ∧
      exec .clear (about 0x00E0 State.reset).advancePc = .next ((about 0x00E0 State.reset).advancePc.writeFb FrameBuffer.unlit)) ∧
    decode (about 0x00EE State.reset).cfg.decode59 (about 0x00EE State.reset).fetchWord = .ok .ret ∧
    exec .ret (about 0x00EE State.reset).advancePc =
      .next ((about 0x00EE State.reset).advancePc.takeFault .stackUnderflow 0x00EE) :=
  ⟨⟨by decide, by decide, rfl⟩, by decide, rfl⟩

/-- UnmatchedWordIsANoOp. -/
theorem witness_unmatched_word_at_pc : (State.reset.writePc 0).status = .running ∧
    decode (State.reset.writePc 0).cfg.decode59 (State.reset.writePc 0).fetchWord = .error (.group0 0) := by decide

/-- FaultedCoreDoesNothing, OnlyConstructLeavesFaulted, CycleReportsItsResult. -/
theorem witness_faulted : faultedCore.status = .faulted ⟨.stackUnderflow, 0x200, 0x00EE⟩ := rfl

/-- The statements about a step that answers a next state and completes; the word writes a timer. -/
theorem witness_step_writes_delay :
    (∃ t, step (about 0xF115 (regs [(1, 5)])) = .next t ∧ decide (t.status = .running) = true) ∧
    decode .strict (about 0xF115 (regs [(1, 5)])).fetchWord = .ok (.writeDelay 1) :=
  ⟨next_of_answers (by decide), by decide⟩

theorem witness_step_writes_sound :
    (∃ t, step (about 0xFF18 (regs [(15, 5)])) = .next t ∧ decide (t.status = .running) = true) ∧
    decode .strict (about 0xFF18 (regs [(15, 5)])).fetchWord = .ok (.writeSound 15) :=
  ⟨next_of_answers (by decide), by decide⟩

theorem witness_step_writes_no_timer (x : Reg) :
    decode .strict (about 0x00E0 State.reset).fetchWord ≠ .ok (.writeDelay x) ∧
    decode .strict (about 0x00E0 State.reset).fetchWord ≠ .ok (.writeSound x) := by
  have h : decode .strict (about 0x00E0 State.reset).fetchWord = .ok .clear := by decide
  rw [h]
  exact ⟨(fun e => by cases e), (fun e => by cases e)⟩

/-- FaultsArePrecise, and the two directions of FaultsAriseExactlyAsListed for StackUnderflow. -/
theorem witness_step_faults :
    (∃ t, step (about 0x00EE State.reset) = .next t ∧
      decide (t.status = .faulted ⟨.stackUnderflow, 0x200, 0x00EE⟩) = true) ∧
    (about 0x00EE State.reset).status = .running ∧ faultCondition (about 0x00EE State.reset) .stackUnderflow :=
  ⟨next_of_answers (by decide), by decide, by decide, by decide⟩

/-- A call on the full bounded stack of depth 1, the smallest bound. -/
def fullStack : State := about 0x2ABC (under (depthCfg 1) { State.reset with stack := [0x300] })

theorem witness_step_overflows :
    (∃ t, step fullStack = .next t ∧ decide (t.status = .faulted ⟨.stackOverflow, 0x200, 0x2ABC⟩) = true) ∧
    faultCondition fullStack .stackOverflow :=
  ⟨next_of_answers (by decide), by decide, by decide⟩

/-- Key number 16, the smallest out of range, and 255. -/
theorem witness_step_key_range :
    faultCondition (about 0xE29E (regs [(2, 16)])) .keyIndexRange ∧
    faultCondition (about 0xE2A1 (regs [(2, 255)])) .keyIndexRange ∧
    ∃ t, step (about 0xE2A1 (regs [(2, 255)])) = .next t ∧
      decide (t.status = .faulted ⟨.keyIndexRange, 0x200, 0xE2A1⟩) = true :=
  ⟨⟨2, by decide, by decide, by decide⟩, ⟨2, by decide, by decide, by decide⟩, next_of_answers (by decide)⟩

/-- StepKeepsTheInvariant and its companions, from a state with a listed byte, a bounded stack with room and a call. -/
theorem witness_invariant : StateInv fullStack ∧ StateInv (about 0x2ABC (under (depthCfg 1) State.reset)) := by
  refine ⟨⟨by decide, by decide, ?_⟩, ⟨by decide, by decide, ?_⟩⟩
  · show fullStack.stack.length ≤ 1
    decide
  · show (about 0x2ABC (under (depthCfg 1) State.reset)).stack.length ≤ 1
    decide

theorem witness_step_calls :
    ∃ t, step (about 0x2ABC (under (depthCfg 1) State.reset)) = .next t ∧ decide (t.stack = [0x202]) = true :=
  next_of_answers (by decide)

/-- OnlyConstructLeavesFaulted: transactions that are not `construct()`, and one that fails. -/
theorem witness_not_construct (op : Transaction) (h : op ∈ [.load [1] 4096, .setKey 16 true, .cycle]) : op ≠ .construct := by
  rintro rfl
  simp at h

/-- AddressBitsAboveMemoryAreUnobservable: two different states, one of which takes an indexed step. -/
theorem witness_alike :
    AlikeModuloMemory { about 0x00EE State.reset with i := 0x0300, stack := [0x0250] }
      { about 0x00EE State.reset with i := 0xF300, stack := [0x1250], pc := 0xF200 } where
  mem := rfl
  v := rfl
  i := rfl
  pc := rfl
  stack := .cons rfl .nil
  dt := rfl
  st := rfl
  fb := rfl
  key := rfl
  status := trivial
  cfg := rfl
  provider := rfl
  drawn := rfl

theorem witness_alike_steps : ∃ t, step { about 0x00EE State.reset with i := 0x0300, stack := [0x0250] } = .next t ∧
    (t.pc == 0x0250) = true :=
  next_of_answers (by decide)

/-! The frames: an instruction that runs and a part it may not change, or the part it does change. -/

/-- InstructionsWriteOnlyTheirRegisters: load-block of V0..V2 and V3; OtherInstructionsLeavePc with it. -/
theorem witness_frame_registers :
    exec (.loadBlock 2) State.reset = .next (State.reset.loadRegs 2 0) ∧ ¬ writesReg (.loadBlock 2) 3 ∧
    ¬ setsPc (.loadBlock 2) := ⟨rfl, by simp [writesReg], id⟩

/-- InstructionsStoreOnlyTheirBytes: the byte after the last one stored, and the byte before the first. -/
theorem witness_frame_memory :
    (∃ t, exec (.storeBlock 2) State.reset = .next t) ∧
    ¬ storedBytes State.reset.i.toNat (bytesStored (.storeBlock 2)) (.byte 3) ∧
    ¬ storedBytes State.reset.i.toNat (bytesStored (.storeBlock 2)) (.byte 4095) := by
  refine ⟨⟨_, rfl⟩, ?_, ?_⟩ <;> rintro ⟨b, k, hb, hk, h⟩ <;> cases hb <;>
    simp [location, memSize, State.reset, State.construct, bytesStored] at h hk <;> omega

/-- OnlyClearAndDrawWriteTheFrameBuffer. -/
theorem witness_frame_buffer_changes :
    ∃ s t : State, exec .clear s = .next t ∧ t.fb ≠ s.fb :=
  ⟨{ State.reset with fb := State.reset.fb.toggle 63 31 }, State.reset, rfl, by decide⟩

theorem witness_index_changes : ∃ t, exec (.loadIndex 0xFFF) State.reset = .next t ∧ t.i ≠ State.reset.i :=
  ⟨State.reset.writeI 0xFFF, rfl, by decide⟩

theorem witness_stack_changes :
    (∃ t, exec (.call 0) State.reset = .next t ∧ t.stack ≠ State.reset.stack) ∧
    ∃ s t : State, exec .ret s = .next t ∧ t.stack ≠ s.stack :=
  ⟨⟨{ State.reset with pc := 0, stack := [0x200] }, rfl, by decide⟩,
    { State.reset with stack := [0x200] }, State.reset, rfl, by decide⟩

theorem witness_timers_change :
    (∃ t, exec (.writeDelay 1) (regs [(1, 255)]) = .next t ∧ t.dt ≠ (regs [(1, 255)]).dt) ∧
    ∃ t, exec (.writeSound 1) (regs [(1, 255)]) = .next t ∧ t.st ≠ (regs [(1, 255)]).st :=
  ⟨⟨_, rfl, by decide⟩, ⟨_, rfl, by decide⟩⟩

/-- SelfJumpRepeatsForever: the last location a self-jump can stand at, its word across the end of memory. -/
theorem witness_self_jump : atSelfJump (about 0x1FFF (State.reset.writePc 0xFFF)) := by
  refine ⟨by decide, by decide, by decide⟩

/-- AwaitKeyWaitsWhileNoKeyIsPressed. -/
theorem witness_waiting :
    (about 0xFF0A State.reset).status = .running ∧
    (about 0xFF0A State.reset).fetchWord.toNat = 0xF00A + 0x100 * (15 : Reg).val ∧
    ∀ k, (about 0xFF0A State.reset).readKey k = false := by decide

/-- DrawXorsTheClippedSprite: a collision in the last cell of the display, and a sprite with none. -/
theorem witness_draw_collides :
    ∃ col row, spriteBit (dataAt 0x300 [0x80] [(0, 63), (1, 31)]) 0 1 15 col row ∧
      { dataAt 0x300 [0x80] [(0, 63), (1, 31)] with fb := State.reset.fb.toggle 63 31 }.fb.cell col row = true := by
  refine ⟨63, 31, ⟨by decide, by decide, by decide, by decide, by decide, by decide, by decide⟩, by decide⟩

theorem witness_draw_does_not_collide :
    ¬ ∃ col row, spriteBit State.reset 0 1 0 col row ∧ State.reset.fb.cell col row = true := by
  rintro ⟨col, row, _, h⟩
  have e : State.reset.fb = FrameBuffer.unlit := rfl
  rw [e, FrameBuffer.cell_unlit] at h
  cases h

/-- DrawTwiceRestoresTheFrameBuffer. -/
theorem witness_draw_twice : (0 : Reg) ≠ vF ∧ (14 : Reg) ≠ vF ∧ ∃ t, exec (.draw 0 14 15) State.reset = .next t :=
  ⟨by decide, by decide, _, rfl⟩

/-- ReturnPopsOrUnderflows. -/
theorem witness_return : { State.reset with stack := [0x252] }.stack = 0x252 :: [] ∧ State.reset.stack = [] := ⟨rfl, rfl⟩

/-- CallPushesOrOverflows: no bound, a bound with one place left, a full stack. -/
theorem witness_call :
    State.reset.cfg.stackDepth = .unbounded ∧
    ((under (depthCfg 1) State.reset).cfg.stackDepth = .bounded 1 ∧ (under (depthCfg 1) State.reset).stack.length < 1) ∧
    fullStack.cfg.stackDepth = .bounded fullStack.stack.length := by decide

/-- The skips: equal and different operands. -/
theorem witness_skip_operands :
    State.reset.readV 3 = 0 ∧ State.reset.readV 3 ≠ 0xFF ∧ State.reset.readV 3 = State.reset.readV 4 ∧
    (regs [(3, 1)]).readV 3 ≠ (regs [(3, 1)]).readV 4 := by decide

/-- The flag-writing statements: x ≠ F, x = F, and both settings of ALU_VF_ALIAS. -/
theorem witness_alias :
    (14 : Reg) ≠ vF ∧ (15 : Reg) = vF ∧ State.reset.cfg.aluVfAlias = .latched ∧
    (under sequentialCfg State.reset).cfg.aluVfAlias = .sequential ∧
    Instr.subn 14 0 ∈ [Instr.addReg 14 0, .sub 14 0, .subn 14 0, .shiftRight 14 0, .shiftLeft 14 0] := by decide

/-- SubtractionsSetDifferenceAndNoBorrow: its named values exist for the operands 0 and 255. -/
theorem witness_subtraction_values :
    (0 = ((regs [(2, 255)]).readV 1).toNat ∧ 255 = ((regs [(2, 255)]).readV 2).toNat) ∧
    0 = (if 0 ≥ 255 then 1 else 0) ∧ 1 = (if 255 ≥ 0 then 1 else 0) := by decide

/-- RandomAndMasksAFreshByte: a named byte and none. -/
theorem witness_provider :
    { State.reset with provider := [0xA7] }.provider = 0xA7 :: [] ∧ State.reset.provider = [] := ⟨rfl, rfl⟩

/-- FontAddressPointsAtItsGlyph: the first and the last glyph. -/
theorem witness_glyph : (State.reset.readV 1).toNat = 0 ∧ ((regs [(1, 15)]).readV 1).toNat = 15 := by decide

/-- The block transfers: the first register, the last, and one above x. -/
theorem witness_block : (0 : Reg) ≤ 0 ∧ (15 : Reg) ≤ 15 ∧ (14 : Reg) < 15 ∧
    ∃ t, exec (.storeBlock 14) State.reset = .next t := ⟨by decide, by decide, by decide, _, rfl⟩

/-- TimerInstructionsMoveVx: the three words at PC. -/
theorem witness_timer_words :
    (about 0xF007 State.reset).fetchWord.toNat = 0xF007 + 0x100 * (0 : Reg).val ∧
    (about 0xFF15 State.reset).fetchWord.toNat = 0xF015 + 0x100 * (15 : Reg).val ∧
    (about 0xFF18 State.reset).fetchWord.toNat = 0xF018 + 0x100 * (15 : Reg).val ∧
    (about 0xF007 State.reset).status = .running := by decide

/-- KeySkipsTestTheSelectedKey: the last key in range, the first and the last value out of range under each policy. -/
theorem witness_selects_key :
    selectsKey (pressing [15] (regs [(2, 15)])) 15 true ∧
    selectsKey (under maskCfg (pressing [0] (regs [(2, 16)]))) 16 true ∧
    selectsKey (under notPressedCfg (pressing [15] (regs [(2, 255)]))) 255 false ∧
    (16 ≤ ((regs [(2, 16)]).readV 2).toNat ∧ (regs [(2, 16)]).cfg.keyIndexPolicy = .fault) :=
  ⟨.inl ⟨15, by decide, by decide⟩, .inr (.inl ⟨by decide, rfl, 0, by decide, by decide⟩),
    .inr (.inr ⟨by decide, rfl, rfl⟩), by decide⟩

/-- AwaitKeyTakesTheLowestPressedKey: key 0, key F alone, no key. -/
theorem witness_await_key :
    ((pressing [0, 15] State.reset).readKey 0 = true ∧ ∀ j < (0 : Fin 16), (pressing [0, 15] State.reset).readKey j = false) ∧
    ((pressing [15] State.reset).readKey 15 = true ∧ ∀ j < (15 : Fin 16), (pressing [15] State.reset).readKey j = false) ∧
    ∀ k, State.reset.readKey k = false := by decide

/-- ConstructGivesTheResetState: the ends of its address ranges read as R44 says after construction. -/
theorem witness_construct_ranges :
    [0x0, 0x4F, 0xA0, 0xFFF].map (reconstruct faultedCore).memRead = [0, 0, 0, 0] ∧
    [0x50, 0x9F].map (reconstruct faultedCore).memRead = [0xF0, 0x80] ∧ (reconstruct faultedCore).status = .running := by decide

/-- `construct()` does not rewind the provider (R122, log 7). -/
theorem test_construct_keeps_the_provider :
    (reconstruct { faultedCore with provider := [0xA7], drawn := 3 }).nextRandom = 0xA7 ∧
    (reconstruct { faultedCore with provider := [0xA7], drawn := 3 }).drawn = 3 := by decide

/-- LoadWritesTheBytesOrFails: the last address that fits and the first that does not. -/
theorem witness_load_ranges : 4095 + [0xAA#8].length ≤ 4096 ∧ 4096 < 4096 + [0xAA#8].length := by decide

theorem test_load_ranges :
    (∃ t, load [0xAA] 4095 State.reset = .ok t ∧ t.memRead 4095 = 0xAA) ∧ load [0xAA] 4096 State.reset = .error .loadRange :=
  ⟨⟨State.reset.memWriteList 4095 [0xAA], by decide, by decide⟩, by decide⟩

/-- SetKeySetsOneKeyOrFails: the indices next to 0..15. -/
theorem witness_key_indices : ((-1 : Int) < 0 ∨ (15 : Int) < -1) ∧ ((16 : Int) < 0 ∨ (15 : Int) < 16) := by decide

theorem test_setKey_ranges :
    setKey (-1) true State.reset = .error .invalidKeyIndex ∧ setKey 16 true State.reset = .error .invalidKeyIndex ∧
    setKey 15 true State.reset = .ok (pressing [15] State.reset) ∧ setKey 0 true State.reset = .ok (pressing [0] State.reset) := by
  decide

end Sys2Proof.Tests
end

section
/-! PROOFS. The memory family: the frame of a store, and the glyphs in the construction contents. -/

namespace Sys2Proof.Machine

/-! ## The frame of a store (R59, R63) -/

/-- A list store changes only the bytes it reaches; every other location and every other part is left alone. -/
theorem changesOnly_memWriteList (a : Nat) (bs : List Byte) (s : State) :
    changesOnly (storedBytes a bs.length) s (s.memWriteList a bs) := by
  intro p hp
  cases p with
  | byte k =>
    have outside : ∀ j < bs.length, location (a + j) ≠ location k :=
      fun j hj hloc => hp ⟨k, j, rfl, hj, hloc.symm⟩
    exact State.memRead_memWriteList_outside a bs s k outside
  | _ => simp [samePart]

/-- The one-byte store is the list store of one byte, so it has that store's frame (R59). -/
theorem changesOnly_memWrite (s : State) (a : Nat) (b : Byte) :
    changesOnly (storedBytes a 1) s (s.memWrite a b) :=
  changesOnly_memWriteList a [b] s

@[simp] theorem State.memRead_memWrite_same (s : State) (a : Nat) (b : Byte) : (s.memWrite a b).memRead a = b := by
  rw [State.memRead_memWrite, if_pos rfl]

/-- Settles O6: a read after the write at the same location, and the frame of a one-byte store. -/
theorem memWriteSetsItsLocationOnly : Obligations.MemWriteSetsItsLocationOnly :=
  fun s a b => ⟨State.memRead_memWrite_same s a b, changesOnly_memWrite s a b⟩

/-! ## The glyphs (R44, R65, R67, R126) -/

/-- Byte n of the glyph table is the construction value of location 0x50 + n. -/
theorem resetByte_glyph (g : GlyphTable) (n : Nat) (hn : n < 80) : resetByte g (0x50 + n) = g[n] := by
  have inTable : glyphBase ≤ 0x50 + n ∧ 0x50 + n < glyphBase + 80 := by simp [glyphBase]; omega
  simp [resetByte, inTable, glyphBase]

/-- After construction every address reads as the construction value of its location. -/
theorem State.memRead_construct (cfg : Config) (a : Nat) :
    (State.construct cfg).memRead a = resetByte cfg.glyphTable (location a) := rfl

theorem State.memRead_construct_glyph (cfg : Config) (n : Nat) (hn : n < 80) :
    (State.construct cfg).memRead (0x50 + n) = cfg.glyphTable[n] := by
  have inMemory : location (0x50 + n) = 0x50 + n := Nat.mod_eq_of_lt (by simp only [memSize]; omega)
  rw [State.memRead_construct, inMemory, resetByte_glyph _ n hn]

/-- The glyph address is below 65536 for every byte, so it never wraps (R126). -/
theorem glyphAddress_toNat (b : Byte) : (glyphAddress b).toNat = 0x50 + 5 * b.toNat := by
  have := b.isLt
  simp only [glyphAddress, glyphBase, glyphBytes, BitVec.toNat_ofNat]
  omega

theorem exec_fontAddress (x : Reg) (s : State) :
    exec (.fontAddress x) s = .next (s.writeI (glyphAddress (s.readV x))) := rfl

/-- Settles O49: glyph k begins at byte 5k of the table, and font-address forms the address of that byte. -/
theorem fontAddressPointsAtItsGlyph : Obligations.FontAddressPointsAtItsGlyph := by
  intro cfg k j hk hj
  constructor
  · rw [Nat.add_assoc]
    exact State.memRead_construct_glyph cfg (5 * k + j) (by omega)
  · intro x s hx
    refine ⟨_, exec_fontAddress x s, ?_⟩
    rw [State.writeI_i, glyphAddress_toNat, hx]

end Sys2Proof.Machine
end

section
/-! PROOFS. The encoding family: the word a fetch reads. -/

namespace Sys2Proof.Machine

/-! ## The fetched word (R57, R61, R77) -/

/-- A word made of two bytes is big-endian (R61). -/
theorem wordOfBytes_toNat (hi lo : Byte) : (wordOfBytes hi lo).toNat = hi.toNat * 256 + lo.toNat := by
  rw [wordOfBytes, BitVec.toNat_append, ← Nat.shiftLeft_add_eq_or_of_lt lo.isLt, Nat.shiftLeft_eq]

/-- Reading at an address already reduced modulo 4096 is reading at the address (R57). -/
theorem State.memRead_mod (s : State) (a : Nat) : s.memRead (a % 4096) = s.memRead a :=
  s.memRead_location _ _ (Nat.mod_mod a 4096)

theorem State.fetchWord_toNat (s : State) :
    s.fetchWord.toNat = (s.memRead s.pc.toNat).toNat * 256 + (s.memRead (s.pc.toNat + 1)).toNat :=
  wordOfBytes_toNat _ _

/-- Settles O7: the fetch is two byte reads, each at its own location; the location after 0xFFF is 0. -/
theorem fetchReadsTwoBytesHighByteFirst : Obligations.FetchReadsTwoBytesHighByteFirst := by
  intro s
  have reads : s.fetchWord.toNat =
      (s.memRead (s.pc.toNat % 4096)).toNat * 256 + (s.memRead ((s.pc.toNat + 1) % 4096)).toNat := by
    rw [s.fetchWord_toNat, s.memRead_mod, s.memRead_mod]
  refine ⟨reads, fun atLast => ?_⟩
  have wraps : (s.pc.toNat + 1) % 4096 = 0 := by omega
  rw [reads, atLast, wraps]

end Sys2Proof.Machine
end

section
/-! PROOFS. The display family: the one word of `clear`, and what clearing changes. -/

namespace Sys2Proof

/-! ## The two full-word instructions come from the exact match only (R82) -/

theorem decodeGroup8_not_fullWord {w : Word} {i : Instr} (h : decodeGroup8 w = .ok i) : i ≠ .clear ∧ i ≠ .ret := by
  unfold decodeGroup8 at h
  split at h <;> cases h <;> exact ⟨nofun, nofun⟩

theorem decodeGroupE_not_fullWord {w : Word} {i : Instr} (h : decodeGroupE w = .ok i) : i ≠ .clear ∧ i ≠ .ret := by
  unfold decodeGroupE at h
  split at h <;> cases h <;> exact ⟨nofun, nofun⟩

theorem decodeGroupF_not_fullWord {w : Word} {i : Instr} (h : decodeGroupF w = .ok i) : i ≠ .clear ∧ i ≠ .ret := by
  unfold decodeGroupF at h
  split at h <;> cases h <;> exact ⟨nofun, nofun⟩

/-- The 5xyn and 9xyn arms answer their own instruction or none (R83). -/
theorem eq_of_lowNibble_guard {d : Decode59} {n : Nibble} {i j : Instr} {e : DecodeReject}
    (h : (if lowNibbleAdmitted d n then .ok j else .error e) = Except.ok i) : i = j := by
  split at h <;> cases h
  rfl

/-- The group selector never answers `clear` or `ret`: group 0 is rejected, every other arm builds another constructor. -/
theorem decodeByGroup_not_fullWord {d : Decode59} {w : Word} {i : Instr} (h : decodeByGroup d w = .ok i) :
    i ≠ .clear ∧ i ≠ .ret := by
  unfold decodeByGroup at h
  split at h
  case h_6 | h_10 => rw [eq_of_lowNibble_guard h]; exact ⟨nofun, nofun⟩
  case h_9 => exact decodeGroup8_not_fullWord h
  case h_15 => exact decodeGroupE_not_fullWord h
  case h_16 => exact decodeGroupF_not_fullWord h
  all_goals cases h <;> exact ⟨nofun, nofun⟩

theorem decode_eq_clear_iff (d : Decode59) (w : Word) : decode d w = .ok .clear ↔ w = 0x00E0#16 := by
  constructor
  · intro h
    unfold decode at h
    split at h
    · assumption
    · split at h
      · cases h
      · exact absurd rfl (decodeByGroup_not_fullWord h).1
  · rintro rfl
    rfl

end Sys2Proof

namespace Sys2Proof.Machine

theorem onlyWord_clear : onlyWord .clear 0x00E0 := by
  intro d w
  rw [decode_eq_clear_iff, ← BitVec.toNat_inj]
  rfl

/-- Replacing the frame buffer leaves every part but the cells as it was. -/
theorem changesOnly_writeFb (s : State) (f : FrameBuffer) : changesOnly anyCell s (s.writeFb f) := by
  intro p hp
  cases p with
  | cell col row => exact absurd ⟨col, row, rfl⟩ hp
  | _ => simp [samePart]

theorem exec_clear (s : State) : exec .clear s = .next (s.writeFb FrameBuffer.unlit) := rfl

/-- Settles O32: the exact word of `clear`, an unlit frame buffer, and the frame of a frame-buffer write. -/
theorem clearUnlightsEveryCell : Obligations.ClearUnlightsEveryCell :=
  ⟨onlyWord_clear, fun s =>
    ⟨_, exec_clear s, fun col row => FrameBuffer.cell_unlit col row, changesOnly_writeFb s FrameBuffer.unlit⟩⟩

end Sys2Proof.Machine
end

section
/-! PROOFS. The control-flow family: a decoded instruction encodes back to its word, and the two jumps. -/

namespace Sys2Proof

/-! ## A word is the sum of its fields (R79, R80) -/

theorem formatNNN_fields {w : Word} {g : Nibble} (hg : (fieldG w).toNat = g.toNat) :
    formatNNN g (fieldNNN w) = w :=
  BitVec.eq_of_toNat_eq (by rw [formatNNN_toNat, ← hg, fieldG_toNat, fieldNNN_toNat]; omega)

theorem formatXNN_fields {w : Word} {g : Nibble} {nn : Byte} (hg : (fieldG w).toNat = g.toNat)
    (hnn : (fieldNN w).toNat = nn.toNat) : formatXNN g (regOf (fieldX w)) nn = w := by
  apply BitVec.eq_of_toNat_eq
  rw [formatXNN_toNat, ← hg, ← hnn, ← regBits_toNat, regBits_regOf, fieldG_toNat, fieldX_toNat, fieldNN_toNat]
  omega

theorem formatXYN_fields {w : Word} {g n : Nibble} (hg : (fieldG w).toNat = g.toNat)
    (hn : (fieldN w).toNat = n.toNat) : formatXYN g (regOf (fieldX w)) (regOf (fieldY w)) n = w := by
  apply BitVec.eq_of_toNat_eq
  rw [formatXYN_toNat, ← hg, ← hn, ← regBits_toNat, ← regBits_toNat, regBits_regOf, regBits_regOf, fieldG_toNat,
    fieldX_toNat, fieldY_toNat, fieldN_toNat]
  omega

/-! ## A decoded instruction encodes back to its word (R82) -/

theorem encode_of_decodeGroup8 {w : Word} {i : Instr} (hg : (fieldG w).toNat = 0x8) (h : decodeGroup8 w = .ok i) :
    encode i = w := by
  unfold decodeGroup8 at h
  split at h <;> cases h <;> exact formatXYN_fields hg ‹_›

theorem encode_of_decodeGroupE {w : Word} {i : Instr} (hg : (fieldG w).toNat = 0xE) (h : decodeGroupE w = .ok i) :
    encode i = w := by
  unfold decodeGroupE at h
  split at h <;> cases h <;> exact formatXNN_fields hg ‹_›

theorem encode_of_decodeGroupF {w : Word} {i : Instr} (hg : (fieldG w).toNat = 0xF) (h : decodeGroupF w = .ok i) :
    encode i = w := by
  unfold decodeGroupF at h
  split at h <;> cases h <;> exact formatXNN_fields hg ‹_›

theorem encode_of_decodeByGroup {d : Decode59} {w : Word} {i : Instr} (h : decodeByGroup d w = .ok i) :
    encode i = w := by
  unfold decodeByGroup at h
  split at h
  case h_1 => cases h
  case h_2 hg | h_3 hg | h_11 hg | h_12 hg => cases h; exact formatNNN_fields hg
  case h_4 hg | h_5 hg | h_7 hg | h_8 hg | h_13 hg => cases h; exact formatXNN_fields hg rfl
  case h_6 hg | h_10 hg => rw [eq_of_lowNibble_guard h]; exact formatXYN_fields hg rfl
  case h_14 hg => cases h; exact formatXYN_fields hg rfl
  case h_9 hg => exact encode_of_decodeGroup8 hg h
  case h_15 hg => exact encode_of_decodeGroupE hg h
  case h_16 =>
    -- a nibble that is none of 0 to 0xE
    have hg : (fieldG w).toNat = 0xF := by have := (fieldG w).isLt; grind
    exact encode_of_decodeGroupF hg h

/-- The word of a decoded instruction is fixed: every bit of it is an operand or selects the instruction. -/
theorem encode_of_decode {d : Decode59} {w : Word} {i : Instr} (h : decode d w = .ok i) : encode i = w := by
  unfold decode at h
  split at h
  case isTrue hclear => cases h; exact hclear.symm
  case isFalse =>
    split at h
    case isTrue hret => cases h; exact hret.symm
    case isFalse => exact encode_of_decodeByGroup h

/-- Outside group 0 there is no full-word instruction, so the group selector decides (R82). -/
theorem decode_of_fieldG_ne_zero (d : Decode59) {w : Word} (hg : fieldG w ≠ 0) : decode d w = decodeByGroup d w := by
  have notClear : w ≠ 0x00E0#16 := by rintro rfl; exact hg rfl
  have notRet : w ≠ 0x00EE#16 := by rintro rfl; exact hg rfl
  rw [decode, if_neg notClear, if_neg notRet]

end Sys2Proof

namespace Sys2Proof.Machine

/-! ## The jumps (R100, R106) -/

/-- An instruction whose word decodes back to it has that word and no other. -/
theorem onlyWord_encode {i : Instr} {n : Nat} (hi : ∀ d, decode d (encode i) = .ok i) (hn : (encode i).toNat = n) :
    onlyWord i n := by
  intro d w
  constructor
  · intro h
    rw [← encode_of_decode h, hn]
  · intro hw
    have isWord : w = encode i := BitVec.eq_of_toNat_eq (hw.trans hn.symm)
    rw [isWord, hi]

theorem decode_encode_jump (d : Decode59) (nnn : Addr12) : decode d (encode (.jump nnn)) = .ok (.jump nnn) := by
  have hg : fieldG (encode (.jump nnn)) = 0x1#4 := fieldG_formatNNN _ _
  rw [decode_of_fieldG_ne_zero d (by rw [hg]; decide)]
  simp [decodeByGroup, encode]

theorem decode_encode_jumpOffset (d : Decode59) (nnn : Addr12) :
    decode d (encode (.jumpOffset nnn)) = .ok (.jumpOffset nnn) := by
  have hg : fieldG (encode (.jumpOffset nnn)) = 0xB#4 := fieldG_formatNNN _ _
  rw [decode_of_fieldG_ne_zero d (by rw [hg]; decide)]
  simp [decodeByGroup, encode]

theorem changesOnly_writePc (s : State) (a : Word) : changesOnly (fun p => p = .pc) s (s.writePc a) := by
  intro p hp
  cases p with
  | pc => exact absurd rfl hp
  | _ => simp [samePart]

theorem addrOf_toNat (nnn : Addr12) : (addrOf nnn).toNat = nnn.toNat :=
  BitVec.toNat_setWidth_of_le (by decide)

theorem wideOf_toNat (b : Byte) : (wideOf b).toNat = b.toNat :=
  BitVec.toNat_setWidth_of_le (by decide)

/-- The sum is at most 0xFFF + 0xFF = 0x10FE, so it never wraps (R106). -/
theorem addrOf_add_wideOf_toNat (nnn : Addr12) (b : Byte) :
    (addrOf nnn + wideOf b).toNat = nnn.toNat + b.toNat := by
  have := nnn.isLt
  have := b.isLt
  rw [BitVec.toNat_add, addrOf_toNat, wideOf_toNat, Nat.mod_eq_of_lt (by omega)]

theorem exec_jump (nnn : Addr12) (s : State) : exec (.jump nnn) s = .next (s.writePc (addrOf nnn)) := rfl

theorem exec_jumpOffset (nnn : Addr12) (s : State) :
    exec (.jumpOffset nnn) s = .next (s.writePc (addrOf nnn + wideOf (s.readV 0))) := rfl

/-- Settles O36: the word 1nnn decodes back to the jump, which is one write of PC. -/
theorem jumpSetsPc : Obligations.JumpSetsPc :=
  fun nnn => ⟨onlyWord_encode (decode_encode_jump · nnn) (formatNNN_toNat 0x1#4 nnn), fun s =>
    ⟨_, exec_jump nnn s, addrOf_toNat nnn, changesOnly_writePc s _⟩⟩

/-- Settles O40: the word Bnnn decodes back to the jump, which is one write of PC with a sum that does not wrap. -/
theorem jumpOffsetAddsV0 : Obligations.JumpOffsetAddsV0 :=
  fun nnn => ⟨onlyWord_encode (decode_encode_jumpOffset · nnn) (formatNNN_toNat 0xB#4 nnn), fun s =>
    ⟨_, exec_jumpOffset nnn s, addrOf_add_wideOf_toNat nnn _, changesOnly_writePc s _⟩⟩

end Sys2Proof.Machine
end

section
/-! PROOFS. The ALU family: every instruction decodes from its own word, what a register write and a flag write
change, and the values of the results and flags as numbers. -/

namespace Sys2Proof

/-! ## Decoding an encoded instruction (R82, R83, R84) -/

/-- The word of an instruction outside group 0 goes to the group selector, which reads the operands back. -/
theorem decode_encode (d : Decode59) (i : Instr) (h : i.wellFormed d = true) : decode d (encode i) = .ok i := by
  cases i with
  | clear | ret => rfl
  | skipEqReg x y n | skipNeReg x y n =>
    rw [decode_of_fieldG_ne_zero d (by simp [encode])]
    have admitted : lowNibbleAdmitted d n = true := h
    simp [decodeByGroup, encode, admitted]
  | _ =>
    rw [decode_of_fieldG_ne_zero d (by simp [encode])]
    simp [decodeByGroup, decodeGroup8, decodeGroupE, decodeGroupF, encode]

end Sys2Proof

namespace Sys2Proof.Machine

/-- The word 8xyn of an instruction of group 8. -/
theorem onlyWord_group8 {i : Instr} (x y : Reg) (n : Nibble) (hi : ∀ d, i.wellFormed d = true)
    (hword : encode i = formatXYN 0x8#4 x y n) : onlyWord i (0x8000 + n.toNat + 0x100 * x.val + 0x10 * y.val) := by
  refine onlyWord_encode (fun d => decode_encode d i (hi d)) ?_
  have group : (0x8#4).toNat = 8 := rfl
  rw [hword, formatXYN_toNat, group]
  omega

/-! ## What a register write and a flag write change (R108) -/

theorem changesOnly_writeV (s : State) (x : Reg) (b : Byte) :
    changesOnly (fun p => p = .reg x) s (s.writeV x b) := by
  intro p hp
  cases p with
  | reg r =>
    have other : x ≠ r := fun hxr => hp (hxr ▸ rfl)
    exact (State.readV_writeV s x r b).trans (if_neg other)
  | _ => simp [samePart]

/-- The flag write and the result write, whatever the two bytes. -/
theorem changesOnly_writeFlagAndReg (s : State) (x : Reg) (a b : Byte) :
    changesOnly (fun p => p = .reg x ∨ p = .reg vF) s ((s.writeV vF a).writeV x b) := fun p hp =>
  changesOnly_trans (changesOnly_writeV s vF a) (changesOnly_writeV _ x b) p fun named => hp named.symm

section Flagged
variable (flag : Byte → Byte → Bool) (result : Byte → Byte → Byte) (x y : Reg) (s : State)

theorem State.flagged_of_latched (h : s.cfg.aluVfAlias = .latched) :
    s.flagged flag result x y = s.flaggedLatched flag result x y := by rw [State.flagged, h]

theorem State.flagged_of_sequential (h : s.cfg.aluVfAlias = .sequential) :
    s.flagged flag result x y = s.flaggedSequential flag result x y := by rw [State.flagged, h]

theorem changesOnly_flagged :
    changesOnly (fun p => p = .reg x ∨ p = .reg vF) s (s.flagged flag result x y) := by
  cases h : s.cfg.aluVfAlias with
  | latched => rw [s.flagged_of_latched _ _ _ _ h]; exact changesOnly_writeFlagAndReg s x _ _
  | sequential => rw [s.flagged_of_sequential _ _ _ _ h]; exact changesOnly_writeFlagAndReg s x _ _

/-- VF is the flag of the old operands under both settings, unless the result overwrites it. -/
theorem State.readV_flagged_vF (hx : x ≠ vF) :
    (s.flagged flag result x y).readV vF = flagByte (flag (s.readV x) (s.readV y)) := by
  cases h : s.cfg.aluVfAlias with
  | latched => rw [s.flagged_of_latched _ _ _ _ h, State.readV_flaggedLatched, if_neg hx, if_pos rfl]
  | sequential => rw [s.flagged_of_sequential _ _ _ _ h, State.readV_flaggedSequential, if_neg hx, if_pos rfl]

theorem State.readV_flagged_latched (h : s.cfg.aluVfAlias = .latched) :
    (s.flagged flag result x y).readV x = result (s.readV x) (s.readV y) := by
  rw [s.flagged_of_latched _ _ _ _ h, State.readV_flaggedLatched, if_pos rfl]

/-- Under sequential an operand register that is VF gives the flag just written. -/
theorem State.readV_flagged_sequential (h : s.cfg.aluVfAlias = .sequential) :
    (s.flagged flag result x y).readV x =
      result (if x = vF then flagByte (flag (s.readV x) (s.readV y)) else s.readV x)
        (if y = vF then flagByte (flag (s.readV x) (s.readV y)) else s.readV y) := by
  rw [s.flagged_of_sequential _ _ _ _ h, State.readV_flaggedSequential, if_pos rfl]
  simp only [eq_comm (a := vF)]

/-- Away from VF the order of the flag write and the operand read cannot be seen. -/
theorem State.readV_flagged_of_ne_vF (hx : x ≠ vF) (hy : y ≠ vF) :
    (s.flagged flag result x y).readV x = result (s.readV x) (s.readV y) := by
  cases h : s.cfg.aluVfAlias with
  | latched => exact s.readV_flagged_latched flag result x y h
  | sequential => rw [s.readV_flagged_sequential flag result x y h, if_neg hx, if_neg hy]

/-- With Vx as its only operand, the result is of the old Vx away from VF and under latched. -/
theorem State.readV_flagged_self (h : x ≠ vF ∨ s.cfg.aluVfAlias = .latched) :
    (s.flagged flag result x x).readV x = result (s.readV x) (s.readV x) := by
  obtain hx | hl := h
  · exact s.readV_flagged_of_ne_vF flag result x x hx hx
  · exact s.readV_flagged_latched flag result x x hl

end Flagged

/-! ## Flags and results as numbers -/

theorem flagByte_toNat (c : Bool) : (flagByte c).toNat = if c then 1 else 0 := by
  cases c <;> rfl

theorem flagByte_carryFlag_toNat (a b : Byte) :
    (flagByte (carryFlag a b)).toNat = if a.toNat + b.toNat > 255 then 1 else 0 := by
  simp [flagByte_toNat, carryFlag]

theorem flagByte_noBorrowFlag_toNat (a b : Byte) :
    (flagByte (noBorrowFlag a b)).toNat = if a.toNat ≥ b.toNat then 1 else 0 := by
  simp [flagByte_toNat, noBorrowFlag]

theorem flagByte_lowBitFlag_toNat (a : Byte) : (flagByte (lowBitFlag a)).toNat = a.toNat % 2 := by
  simp only [flagByte_toNat, lowBitFlag, BitVec.getLsbD, Nat.testBit_zero, decide_eq_true_eq]
  split <;> omega

theorem flagByte_highBitFlag_toNat (a : Byte) : (flagByte (highBitFlag a)).toNat = a.toNat / 128 := by
  have := a.isLt
  simp only [flagByte_toNat, highBitFlag, BitVec.getLsbD, Nat.testBit_eq_decide_div_mod_eq, decide_eq_true_eq]
  split <;> omega

/-- The difference modulo 256, formed without going below zero. -/
theorem byte_sub_toNat (a b : Byte) : (a - b).toNat = (256 + a.toNat - b.toNat) % 256 := by
  have := b.isLt
  rw [BitVec.toNat_sub]
  omega

theorem byte_shiftRight_toNat (a : Byte) : (a >>> 1).toNat = a.toNat / 2 := by
  rw [BitVec.toNat_ushiftRight, Nat.shiftRight_one]

theorem byte_shiftLeft_toNat (a : Byte) : (a <<< 1).toNat = a.toNat * 2 % 256 := by
  rw [BitVec.toNat_shiftLeft, Nat.shiftLeft_eq]

/-! ## The meaning of each instruction (R110 to R120) -/

theorem exec_loadImm (x : Reg) (nn : Byte) (s : State) : exec (.loadImm x nn) s = .next (s.writeV x nn) := rfl

theorem exec_addImm (x : Reg) (nn : Byte) (s : State) :
    exec (.addImm x nn) s = .next (s.writeV x (s.readV x + nn)) := rfl

theorem exec_copy (x y : Reg) (s : State) : exec (.copy x y) s = .next (s.writeV x (s.readV y)) := rfl

theorem exec_orReg (x y : Reg) (s : State) :
    exec (.orReg x y) s = .next (s.writeV x (s.readV x ||| s.readV y)) := rfl

theorem exec_andReg (x y : Reg) (s : State) :
    exec (.andReg x y) s = .next (s.writeV x (s.readV x &&& s.readV y)) := rfl

theorem exec_xorReg (x y : Reg) (s : State) :
    exec (.xorReg x y) s = .next (s.writeV x (s.readV x ^^^ s.readV y)) := rfl

theorem exec_addReg (x y : Reg) (s : State) :
    exec (.addReg x y) s = .next (s.flaggedLatched carryFlag (fun a b => a + b) x y) := rfl

theorem exec_sub (x y : Reg) (s : State) :
    exec (.sub x y) s = .next (s.flagged noBorrowFlag (fun a b => a - b) x y) := rfl

theorem exec_subn (x y : Reg) (s : State) :
    exec (.subn x y) s = .next (s.flagged (fun a b => noBorrowFlag b a) (fun a b => b - a) x y) := rfl

theorem exec_shiftRight (x y : Reg) (s : State) :
    exec (.shiftRight x y) s = .next (s.flagged (fun a _ => lowBitFlag a) (fun a _ => a >>> 1) x x) := rfl

theorem exec_shiftLeft (x y : Reg) (s : State) :
    exec (.shiftLeft x y) s = .next (s.flagged (fun a _ => highBitFlag a) (fun a _ => a <<< 1) x x) := rfl

/-! ## The statements -/

/-- Settles O41: each is one write of Vx. -/
theorem immediateForms : Obligations.ImmediateForms := by
  intro x nn
  refine ⟨onlyWord_encode (fun d => decode_encode d _ rfl) (formatXNN_toNat 0x6#4 x nn),
    onlyWord_encode (fun d => decode_encode d _ rfl) (formatXNN_toNat 0x7#4 x nn), fun s => ⟨?_, ?_⟩⟩
  · exact ⟨_, exec_loadImm x nn s, s.readV_writeV_same x nn, changesOnly_writeV s x nn⟩
  · refine ⟨_, exec_addImm x nn s, ?_, changesOnly_writeV s x _⟩
    rw [State.readV_writeV_same, BitVec.toNat_add]

/-- Settles O42: each is one write of Vx, and the bitwise operations act on each bit. -/
theorem copyAndLogic : Obligations.CopyAndLogic := by
  intro x y
  refine ⟨onlyWord_group8 x y 0x0#4 (fun _ => rfl) rfl, onlyWord_group8 x y 0x1#4 (fun _ => rfl) rfl,
    onlyWord_group8 x y 0x2#4 (fun _ => rfl) rfl, onlyWord_group8 x y 0x3#4 (fun _ => rfl) rfl,
    fun s => ⟨?_, ?_, ?_, ?_⟩⟩
  · exact ⟨_, exec_copy x y s, s.readV_writeV_same x _, changesOnly_writeV s x _⟩
  · refine ⟨_, exec_orReg x y s, changesOnly_writeV s x _, fun k _ => ?_⟩
    rw [State.readV_writeV_same, BitVec.getLsbD_or]
  · refine ⟨_, exec_andReg x y s, changesOnly_writeV s x _, fun k _ => ?_⟩
    rw [State.readV_writeV_same, BitVec.getLsbD_and]
  · refine ⟨_, exec_xorReg x y s, changesOnly_writeV s x _, fun k _ => ?_⟩
    rw [State.readV_writeV_same, BitVec.getLsbD_xor]

/-- Settles O43: the latched flag write, which `add-reg` uses under both settings of ALU_VF_ALIAS. -/
theorem addRegSetsSumAndCarry : Obligations.AddRegSetsSumAndCarry := by
  intro x y
  refine ⟨onlyWord_group8 x y 0x4#4 (fun _ => rfl) rfl, fun s =>
    ⟨_, exec_addReg x y s, ?_, fun hx => ?_, changesOnly_writeFlagAndReg s x _ _⟩⟩
  · rw [State.readV_flaggedLatched, if_pos rfl, BitVec.toNat_add]
  · rw [State.readV_flaggedLatched, if_neg hx, if_pos rfl, flagByte_carryFlag_toNat]

/-- Settles O44: the flagged operation with the no-borrow flag; under sequential each operand is the flag or the
old register. -/
theorem subtractionsSetDifferenceAndNoBorrow : Obligations.SubtractionsSetDifferenceAndNoBorrow := by
  intro x y
  refine ⟨onlyWord_group8 x y 0x5#4 (fun _ => rfl) rfl, onlyWord_group8 x y 0x7#4 (fun _ => rfl) rfl, ?_⟩
  rintro s _ _ _ _ rfl rfl rfl rfl
  constructor
  · refine ⟨_, exec_sub x y s, changesOnly_flagged _ _ x y s, fun hx => ?_, fun h => ?_, fun h => ?_⟩
    · rw [State.readV_flagged_vF _ _ _ _ _ hx, flagByte_noBorrowFlag_toNat]
    · rw [State.readV_flagged_latched _ _ _ _ _ h, byte_sub_toNat]
    · rw [State.readV_flagged_sequential _ _ _ _ _ h, byte_sub_toNat, apply_ite BitVec.toNat, apply_ite BitVec.toNat,
        flagByte_noBorrowFlag_toNat]
  · refine ⟨_, exec_subn x y s, changesOnly_flagged _ _ x y s, fun hx => ?_, fun h => ?_, fun h => ?_⟩
    · rw [State.readV_flagged_vF _ _ _ _ _ hx, flagByte_noBorrowFlag_toNat]
    · rw [State.readV_flagged_latched _ _ _ _ _ h, byte_sub_toNat]
    · rw [State.readV_flagged_sequential _ _ _ _ _ h, byte_sub_toNat, apply_ite BitVec.toNat, apply_ite BitVec.toNat,
        flagByte_noBorrowFlag_toNat]

/-- Settles O45: the flagged operation with Vx as both operands; for x = F under sequential the flag is shifted. -/
theorem shiftsMoveOneBitIntoVF : Obligations.ShiftsMoveOneBitIntoVF := by
  intro x y
  refine ⟨onlyWord_group8 x y 0x6#4 (fun _ => rfl) rfl, onlyWord_group8 x y 0xE#4 (fun _ => rfl) rfl, ?_⟩
  rintro s _ rfl
  constructor
  · refine ⟨_, exec_shiftRight x y s, changesOnly_flagged _ _ x x s, fun hx => ?_, fun h => ?_, fun hx h => ?_⟩
    · rw [State.readV_flagged_vF _ _ _ _ _ hx, flagByte_lowBitFlag_toNat]
    · rw [State.readV_flagged_self _ _ _ _ h, byte_shiftRight_toNat]
    · rw [State.readV_flagged_sequential _ _ _ _ _ h, if_pos hx, byte_shiftRight_toNat, flagByte_lowBitFlag_toNat]
  · refine ⟨_, exec_shiftLeft x y s, changesOnly_flagged _ _ x x s, fun hx => ?_, fun h => ?_, fun hx h => ?_⟩
    · rw [State.readV_flagged_vF _ _ _ _ _ hx, flagByte_highBitFlag_toNat]
    · rw [State.readV_flagged_self _ _ _ _ h, byte_shiftLeft_toNat]
    · have := (s.readV x).isLt
      rw [State.readV_flagged_sequential _ _ _ _ _ h, if_pos hx, byte_shiftLeft_toNat, flagByte_highBitFlag_toNat]
      omega

end Sys2Proof.Machine
end

section
/-! PROOFS. Encoding: decoder and encoder are inverse, and a decoded word has the fixed bits of its table row. -/

namespace Sys2Proof

/-- Settles O1: the group selector reads every operand of the encoding back. -/
theorem decodeOfEncodeIsTheInstruction : Obligations.DecodeOfEncodeIsTheInstruction := decode_encode

/-! ## A decoded instruction is well formed (R83) -/

theorem wellFormed_of_decodeGroup8 {w : Word} {i : Instr} (d : Decode59) (h : decodeGroup8 w = .ok i) :
    i.wellFormed d = true := by
  unfold decodeGroup8 at h
  split at h <;> cases h <;> rfl

theorem wellFormed_of_decodeGroupE {w : Word} {i : Instr} (d : Decode59) (h : decodeGroupE w = .ok i) :
    i.wellFormed d = true := by
  unfold decodeGroupE at h
  split at h <;> cases h <;> rfl

theorem wellFormed_of_decodeGroupF {w : Word} {i : Instr} (d : Decode59) (h : decodeGroupF w = .ok i) :
    i.wellFormed d = true := by
  unfold decodeGroupF at h
  split at h <;> cases h <;> rfl

/-- The guard of 5xyn and 9xyn is the well-formedness of the two register skips. -/
theorem wellFormed_of_decodeByGroup {d : Decode59} {w : Word} {i : Instr} (h : decodeByGroup d w = .ok i) :
    i.wellFormed d = true := by
  unfold decodeByGroup at h
  split at h
  case h_6 | h_10 =>
    split at h
    · cases h; assumption
    · cases h
  case h_9 => exact wellFormed_of_decodeGroup8 d h
  case h_15 => exact wellFormed_of_decodeGroupE d h
  case h_16 => exact wellFormed_of_decodeGroupF d h
  all_goals cases h <;> rfl

theorem wellFormed_of_decode {d : Decode59} {w : Word} {i : Instr} (h : decode d w = .ok i) :
    i.wellFormed d = true := by
  unfold decode at h
  split at h
  · cases h; rfl
  · split at h
    · cases h; rfl
    · exact wellFormed_of_decodeByGroup h

/-- Settles O2: the operands of a decoded instruction are the word's own fields. -/
theorem encodeOfDecodeIsTheWord : Obligations.EncodeOfDecodeIsTheWord :=
  fun _ _ _ h => ⟨encode_of_decode h, wellFormed_of_decode h⟩

/-! ## The opcode table (R84) -/

/-- The word of a well-formed instruction has the fixed bits of its row. -/
theorem row_matchesWord_encode (i : Instr) (h : i.wellFormed .strict = true) : i.row.matchesWord (encode i) = true := by
  cases i with
  | clear | ret => rfl
  | jump | call | loadIndex | jumpOffset =>
    exact Laws.EncodesRow.matches_of_bits _ _ (Laws.EncodesRow.rowG _ _ (fieldG_formatNNN _ _))
  | skipEqImm | skipNeImm | loadImm | addImm | randomAnd =>
    exact Laws.EncodesRow.matches_of_bits _ _ (Laws.EncodesRow.rowG _ _ (fieldG_formatXNN _ _ _))
  | draw => exact Laws.EncodesRow.draw _ _ _ h
  | skipEqReg => exact Laws.EncodesRow.skipEqReg _ _ _ h
  | skipNeReg => exact Laws.EncodesRow.skipNeReg _ _ _ h
  | copy | orReg | andReg | xorReg | addReg | sub | shiftRight | subn | shiftLeft =>
    exact Laws.EncodesRow.matches_of_bits _ _
      (Laws.EncodesRow.rowGN _ _ _ (fieldG_formatXYN _ _ _ _) (fieldN_formatXYN _ _ _ _))
  | skipKeyPressed | skipKeyReleased | readDelay | awaitKey | writeDelay | writeSound | addIndex | fontAddress
  | bcdStore | storeBlock | loadBlock =>
    exact Laws.EncodesRow.matches_of_bits _ _
      (Laws.EncodesRow.rowGNN _ _ _ (fieldG_formatXNN _ _ _) (fieldNN_formatXNN _ _ _))

/-- A mask that holds a whole field fixes that field of the masked word. -/
theorem field_of_masked {w m v : Word} {start len : Nat} (h : w &&& m = v)
    (hm : m.extractLsb' start len = BitVec.allOnes len) : w.extractLsb' start len = v.extractLsb' start len := by
  rw [← h, BitVec.extractLsb'_and, hm, BitVec.and_allOnes]

/-- A word with the fixed bits of a row decodes to an instruction of that row: the dispatch tests the fixed fields and
nothing else (R82). -/
theorem decode_of_row_matchesWord {i : Instr} {w : Word} (h : i.row.matchesWord w = true) :
    ∃ j, decode .strict w = .ok j ∧ j.row = i.row := by
  cases i <;> simp only [OpcodeRow.matchesWord, Instr.row, beq_iff_eq] at h
  case clear | ret =>
    rw [show (0xFFFF : Word) = BitVec.allOnes 16 from rfl, BitVec.and_allOnes] at h
    subst h
    exact ⟨_, rfl, rfl⟩
  all_goals have hg : fieldG w = fieldG _ := field_of_masked h rfl
  all_goals rw [decode_of_fieldG_ne_zero .strict (by rw [hg]; decide), decodeByGroup, hg]
  case skipEqReg | skipNeReg =>
    have hn : fieldN w = fieldN _ := field_of_masked h rfl
    rw [hn]
    exact ⟨_, rfl, rfl⟩
  case copy | orReg | andReg | xorReg | addReg | sub | shiftRight | subn | shiftLeft =>
    have hn : fieldN w = fieldN _ := field_of_masked h rfl
    rw [decodeGroup8, hn]
    exact ⟨_, rfl, rfl⟩
  case skipKeyPressed | skipKeyReleased =>
    have hnn : fieldNN w = fieldNN _ := field_of_masked h rfl
    rw [decodeGroupE, hnn]
    exact ⟨_, rfl, rfl⟩
  case readDelay | awaitKey | writeDelay | writeSound | addIndex | fontAddress | bcdStore | storeBlock | loadBlock =>
    have hnn : fieldNN w = fieldNN _ := field_of_masked h rfl
    rw [decodeGroupF, hnn]
    exact ⟨_, rfl, rfl⟩
  all_goals exact ⟨_, rfl, rfl⟩

/-- Settles O3: the encoding of an instruction has its row's bits, and a row's bits are what the dispatch tests. -/
theorem opcodeTableSelectsTheInstruction : Obligations.OpcodeTableSelectsTheInstruction := by
  refine ⟨fun w i h => ?_, fun w i h => decode_of_row_matchesWord h⟩
  rw [← encode_of_decode h]
  exact row_matchesWord_encode i (wellFormed_of_decode h)

/-- Settles O4: each word is evaluated by the decoder. -/
theorem wordsWrittenOutDecode : Obligations.WordsWrittenOutDecode := by
  unfold Obligations.WordsWrittenOutDecode
  decide

end Sys2Proof
end

section
/-! PROOFS. What an instruction leaves alone, read off the shapes of its effect (rules R23, R25, R28, R33 to R35, R38,
R63, R98). -/

namespace Sys2Proof.Machine

section
variable {i : Instr} {s t : State}

/-! ## Parts no instruction writes -/

theorem Effect.key_eq (e : Effect i s t) : t.key = s.key := by
  cases e <;> simp

theorem Effect.cfg_eq (e : Effect i s t) : t.cfg = s.cfg := by
  cases e <;> simp

/-! ## Parts written by the instructions a table names -/

theorem Effect.readV_eq (e : Effect i s t) {r : Reg} (hr : ¬ writesReg i r) : t.readV r = s.readV r := by
  have other : ∀ {x}, writesReg i x → x ≠ r := fun hx hxr => hr (hxr ▸ hx)
  cases e with
  | writeReg x b h => rw [State.readV_writeV, if_neg (other h)]
  | writeFlagAndReg x a b hF h => rw [State.readV_writeV, State.readV_writeV, if_neg (other h), if_neg (other hF)]
  | drawRandom x nn b h => subst h; rw [State.readV_writeV, if_neg (other rfl), State.consumeRandom_readV]
  | load x h =>
    subst h
    have above : ¬ r ≤ x := hr
    rw [State.readV_loadRegs, if_neg above]
  | draw x y n h f b => subst h; rw [State.readV_writeV, if_neg (other rfl), State.writeFb_readV]
  | push | pop => rfl
  | _ => simp

theorem Effect.pc_eq (e : Effect i s t) (hi : ¬ setsPc i) : t.pc = s.pc := by
  cases e with
  | setPc a h | skip c h => exact absurd h hi
  | push nnn h | overflow nnn h => subst h; exact absurd trivial hi
  | pop top rest h | underflow h => subst h; exact absurd trivial hi
  | keyRange x h => obtain rfl | rfl := h <;> exact absurd trivial hi
  | _ => simp

theorem Effect.memRead_eq (e : Effect i s t) {a : Nat} (ha : ¬ storedBytes s.i.toNat (bytesStored i) (.byte a)) :
    t.memRead a = s.memRead a := by
  cases e with
  | store bs h => exact changesOnly_memWriteList s.dataBase bs s (.byte a) (h ▸ ha)
  | push | pop => rfl
  | _ => simp

theorem Effect.fb_eq (e : Effect i s t) (hi : i ≠ .clear) (hd : ∀ x y n, i ≠ .draw x y n) : t.fb = s.fb := by
  cases e with
  | clear h => exact absurd h hi
  | draw x y n h => exact absurd h (hd x y n)
  | _ => simp

theorem Effect.i_eq (e : Effect i s t)
    (hi : ¬ ((∃ nnn, i = .loadIndex nnn) ∨ (∃ x, i = .addIndex x) ∨ ∃ x, i = .fontAddress x)) : t.i = s.i := by
  cases e with
  | setIndex a h => exact absurd h hi
  | _ => simp

theorem Effect.stack_cases (e : Effect i s t) :
    t.stack = s.stack ∨ ((∃ nnn, i = .call nnn) ∧ t.stack = s.pc :: s.stack) ∨ (i = .ret ∧ ∃ a, s.stack = a :: t.stack) := by
  cases e with
  | push nnn h => exact .inr (.inl ⟨⟨nnn, h⟩, rfl⟩)
  | pop top rest h hs => exact .inr (.inr ⟨h, top, hs⟩)
  | _ => exact .inl (by simp)

theorem Effect.dt_eq (e : Effect i s t) (hi : ∀ x, i ≠ .writeDelay x) : t.dt = s.dt := by
  cases e with
  | setDelay x h => exact absurd h (hi x)
  | _ => simp

theorem Effect.st_eq (e : Effect i s t) (hi : ∀ x, i ≠ .writeSound x) : t.st = s.st := by
  cases e with
  | setSound x h => exact absurd h (hi x)
  | _ => simp

/-- Executing the fetched word, matched or not, keeps what no instruction writes: the pre-increment writes PC only. -/
theorem Executed.key_eq (h : Executed s t) : t.key = s.key := by
  cases h with
  | instr i t hd he => exact (effect_of_exec i _ t he).key_eq
  | unmatched => rfl

theorem Executed.cfg_eq (h : Executed s t) : t.cfg = s.cfg := by
  cases h with
  | instr i t hd he => exact (effect_of_exec i _ t he).cfg_eq
  | unmatched => rfl

end

/-! ## The statements -/

/-- Settles O22: neither an instruction nor the end of a cycle writes the key panel or the parameters. -/
theorem noStepChangesKeysOrParameters : Obligations.NoStepChangesKeysOrParameters := by
  intro s t h
  obtain ⟨-, u, hu, rfl⟩ := step_next s t h
  exact ⟨(completeCycle_key u).trans hu.key_eq, (completeCycle_cfg u).trans hu.cfg_eq⟩

/-- Settles O23: by the shape of the effect. -/
theorem instructionsWriteOnlyTheirRegisters : Obligations.InstructionsWriteOnlyTheirRegisters :=
  fun i s t _ h hr => (effect_of_exec i s t h).readV_eq hr

/-- Settles O24: by the shape of the effect. -/
theorem otherInstructionsLeavePc : Obligations.OtherInstructionsLeavePc :=
  fun i s t h hi => (effect_of_exec i s t h).pc_eq hi

/-- Settles O25: the only store of an effect is the list store at I. -/
theorem instructionsStoreOnlyTheirBytes : Obligations.InstructionsStoreOnlyTheirBytes :=
  fun i s t _ h ha => (effect_of_exec i s t h).memRead_eq ha

/-- Settles O26: every other shape keeps the frame buffer. -/
theorem onlyClearAndDrawWriteTheFrameBuffer : Obligations.OnlyClearAndDrawWriteTheFrameBuffer := by
  intro i s t h changed
  by_contra hi
  rw [not_or] at hi
  exact changed ((effect_of_exec i s t h).fb_eq hi.1 fun x y n hd => hi.2 ⟨x, y, n, hd⟩)

/-- Settles O27: every other shape keeps I. -/
theorem onlyThreeInstructionsModifyIndex : Obligations.OnlyThreeInstructionsModifyIndex := by
  intro i s t h changed
  by_contra hi
  exact changed ((effect_of_exec i s t h).i_eq hi)

/-- Settles O28: a changed stack leaves the push and the pop. -/
theorem onlyCallAndReturnReachTheStack : Obligations.OnlyCallAndReturnReachTheStack :=
  fun i s t h changed => (effect_of_exec i s t h).stack_cases.resolve_left changed

/-- Settles O29: every other shape keeps the timer. -/
theorem onlyTimerInstructionsWriteTimers : Obligations.OnlyTimerInstructionsWriteTimers := by
  intro i s t h
  have e := effect_of_exec i s t h
  refine ⟨fun changed => ?_, fun changed => ?_⟩
  · by_contra hi
    exact changed (e.dt_eq fun x hx => hi ⟨x, hx⟩)
  · by_contra hi
    exact changed (e.st_eq fun x hx => hi ⟨x, hx⟩)

end Sys2Proof.Machine
end

section
/-! PROOFS. The invariant: every effect, every step and every transaction keeps it. -/

namespace Sys2Proof.Machine

section
variable {i : Instr} {s t : State}

/-- The invariant speaks of memory, parameters and stack only. -/
theorem StateInv.congr (h : StateInv s) (hmem : t.mem = s.mem) (hcfg : t.cfg = s.cfg) (hstack : t.stack = s.stack) :
    StateInv t where
  memory := by rw [hmem, hcfg]; exact h.memory
  config := by rw [hcfg]; exact h.config
  stack := by rw [hcfg, hstack]; exact h.stack

theorem StateInv.memWriteList (h : StateInv s) (a : Nat) (bs : List Byte) : StateInv (s.memWriteList a bs) where
  memory := by rw [State.memWriteList_cfg]; exact State.wf_memWriteList a bs s h.memory
  config := by rw [State.memWriteList_cfg]; exact h.config
  stack := by rw [State.memWriteList_cfg, State.memWriteList_stack]; exact h.stack

/-- A push onto a stack with room stays within STACK_DEPTH (R31). -/
theorem stackWithinDepth_cons {d : StackDepth} {st : List Word} (a : Word) (room : stackFull d st = false) :
    stackWithinDepth d (a :: st) := by
  cases d with
  | unbounded => trivial
  | bounded n =>
    have : ¬ n ≤ st.length := of_decide_eq_false room
    simp only [stackWithinDepth, List.length_cons]
    omega

theorem stackWithinDepth_of_cons {d : StackDepth} {a : Word} {st : List Word} (h : stackWithinDepth d (a :: st)) :
    stackWithinDepth d st := by
  cases d with
  | unbounded => trivial
  | bounded n => exact Nat.le_of_succ_le h

theorem stackWithinDepth_nil (d : StackDepth) : stackWithinDepth d [] := by
  cases d with
  | unbounded => trivial
  | bounded n => exact Nat.zero_le n

/-- Only a store, a push and a pop touch what the invariant speaks of. -/
theorem Effect.keeps_inv (e : Effect i s t) (h : StateInv s) : StateInv t := by
  cases e with
  | store bs _ => exact h.memWriteList _ bs
  | push nnn _ room => exact ⟨h.memory, h.config, stackWithinDepth_cons s.pc room⟩
  | pop top rest _ hs => exact ⟨h.memory, h.config, stackWithinDepth_of_cons (hs ▸ h.stack)⟩
  | _ => exact h.congr (by simp) (by simp) (by simp)

theorem Executed.keeps_inv (e : Executed s t) (h : StateInv s) : StateInv t := by
  have advanced : StateInv s.advancePc := h.congr rfl rfl rfl
  cases e with
  | instr i t hd he => exact (effect_of_exec i _ t he).keeps_inv advanced
  | unmatched => exact advanced

theorem step_keeps_inv (h : StateInv s) (hstep : step s = .next t) : StateInv t := by
  obtain ⟨-, u, hu, rfl⟩ := step_next s t hstep
  exact (hu.keeps_inv h).congr (completeCycle_mem u) (completeCycle_cfg u) (completeCycle_stack u)

/-- Empty memory and stack under legal parameters (R44). -/
theorem StateInv.of_nil (hmem : t.mem = []) (hcfg : t.cfg.wf) (hstack : t.stack = []) : StateInv t where
  memory := by rw [hmem]; exact ⟨List.Pairwise.nil, fun _ hc => absurd hc List.not_mem_nil⟩
  config := hcfg
  stack := by rw [hstack]; exact stackWithinDepth_nil _

/-! ## `cycle()` and its result (R49, R91) -/

theorem cycle_of_next (h : step s = .next t) : cycle s = (t, cycleReport t) := by rw [cycle, h]

theorem step_of_faulted {r : FaultRecord} (h : s.status = .faulted r) : step s = .fault (.halted r) := by
  rw [step, cycleStep, h]

theorem cycle_of_faulted {r : FaultRecord} (h : s.status = .faulted r) : cycle s = (s, .halted r) := by
  rw [cycle, step_of_faulted h]

/-! ## What `load` and `setKey` do (R47, R48) -/

theorem load_of_le {bytes : List Byte} {base : Nat} (h : base + bytes.length ≤ memSize) :
    load bytes base s = .ok (s.memWriteList base bytes) := if_pos h

theorem load_of_gt {bytes : List Byte} {base : Nat} (h : memSize < base + bytes.length) :
    load bytes base s = .error .loadRange := if_neg (Nat.not_le.mpr h)

theorem setKey_of_mem {index : Int} {pressed : Bool} (h : 0 ≤ index ∧ index < 16) :
    setKey index pressed s = .ok { s with key := s.key.setIfInBounds index.toNat pressed } := if_pos h

theorem setKey_of_not_mem {index : Int} {pressed : Bool} (h : ¬ (0 ≤ index ∧ index < 16)) :
    setKey index pressed s = .error .invalidKeyIndex := if_neg h

theorem transact_load (s : State) (bytes : List Byte) (base : Nat) :
    transact (.load bytes base) s = s.memWriteList base bytes ∨ transact (.load bytes base) s = s := by
  rcases Nat.lt_or_ge memSize (base + bytes.length) with h | h
  · right; simp only [transact, load_of_gt h]
  · left; simp only [transact, load_of_le h]

theorem transact_setKey (s : State) (index : Int) (pressed : Bool) :
    transact (.setKey index pressed) s = { s with key := s.key.setIfInBounds index.toNat pressed } ∨
      transact (.setKey index pressed) s = s := by
  by_cases h : 0 ≤ index ∧ index < 16
  · left; simp only [transact, setKey_of_mem h]
  · right; simp only [transact, setKey_of_not_mem h]

theorem cycle_keeps_inv (h : StateInv s) : StateInv (cycle s).1 := by
  cases hs : s.status with
  | running =>
    obtain ⟨u, hu, -⟩ := step_of_running s hs
    rw [cycle_of_next hu]
    exact step_keeps_inv h hu
  | faulted r => rw [cycle_of_faulted hs]; exact h

end

/-! ## The statements -/

/-- Settles O18: the effect of the fetched word and the tick each keep the invariant. -/
theorem stepKeepsTheInvariant : Obligations.StepKeepsTheInvariant := fun _ _ h hstep => step_keeps_inv h hstep

/-- Settles O19: the reset state lists no memory, stacks nothing and has the default parameters. -/
theorem resetMeetsTheInvariant : Obligations.ResetMeetsTheInvariant :=
  StateInv.of_nil rfl (by decide) rfl

/-- Settles O20: construct gives empty memory and stack, load is a list store, setKey leaves the three parts alone and
cycle is a step or nothing. -/
theorem transactionsKeepTheInvariant : Obligations.TransactionsKeepTheInvariant := by
  intro op s h
  cases op with
  | construct => exact StateInv.of_nil rfl h.config rfl
  | load bytes base =>
    obtain ht | ht := transact_load s bytes base <;> rw [ht]
    · exact h.memWriteList base bytes
    · exact h
  | setKey index pressed =>
    obtain ht | ht := transact_setKey s index pressed <;> rw [ht]
    · exact h.congr rfl rfl rfl
    · exact h
  | cycle => exact cycle_keeps_inv h

end Sys2Proof.Machine
end

section
/-! PROOFS. Control flow and keys: return, call, the skips and await-key, each from the one equation of its meaning on
each path. -/

namespace Sys2Proof.Machine

/-! ## Words (R94) -/

/-- A word names an instruction exactly when it is the instruction's encoding and the instruction is well formed. -/
theorem decode_eq_ok_iff (d : Decode59) (w : Word) (i : Instr) :
    decode d w = .ok i ↔ w.toNat = (encode i).toNat ∧ i.wellFormed d = true := by
  constructor
  · intro h
    exact ⟨congrArg BitVec.toNat (encode_of_decode h).symm, wellFormed_of_decode h⟩
  · rintro ⟨hw, hi⟩
    rw [BitVec.eq_of_toNat_eq hw]
    exact decode_encode d i hi

theorem onlyWord_of_wellFormed {i : Instr} {n : Nat} (hi : ∀ d, i.wellFormed d = true) (hn : (encode i).toNat = n) :
    onlyWord i n :=
  onlyWord_encode (fun d => decode_encode d i (hi d)) hn

/-- The word of an instruction that is fixed by its group, its low byte and x. -/
theorem onlyWord_lowByte {i : Instr} (g : Nibble) (x : Reg) (nn : Byte) (hi : ∀ d, i.wellFormed d = true)
    (hword : encode i = formatXNN g x nn) : onlyWord i (0x1000 * g.toNat + nn.toNat + 0x100 * x.val) := by
  refine onlyWord_of_wellFormed hi ?_
  rw [hword, formatXNN_toNat]
  omega

theorem lowNibbleAdmitted_iff (d : Decode59) (n : Nibble) : lowNibbleAdmitted d n = true ↔ n = 0 ∨ d = .ignoreN := by
  cases d <;> simp [lowNibbleAdmitted]

/-! ## Frames -/

theorem changesOnly_skipIf (s : State) (c : Bool) : changesOnly (fun p => p = .pc) s (s.skipIf c) := by
  cases c with
  | false => intro p _; cases p <;> rfl
  | true => exact changesOnly_writePc s _

/-- A fault writes PC and the status (R144). -/
theorem changesOnly_takeFault (s : State) (c : FaultCause) (w : Word) :
    changesOnly (fun p => p = .pc ∨ p = .status) s (s.takeFault c w) := by
  intro p hp
  cases p with
  | pc => exact absurd (.inl rfl) hp
  | status => exact absurd (.inr rfl) hp
  | _ => simp [samePart]

theorem changesOnly_writePc_stack (s : State) (st : List Word) (a : Word) :
    changesOnly (fun p => p = .pc ∨ p = .stack) s ({ s with stack := st }.writePc a) := by
  intro p hp
  cases p with
  | pc => exact absurd (.inl rfl) hp
  | stack => exact absurd (.inr rfl) hp
  | _ => rfl

/-! ## The skip (R17, R26) -/

theorem word_add_two_toNat (a : Word) : (a + 2#16).toNat = (a.toNat + 2) % 65536 := BitVec.toNat_add a 2#16

theorem State.skipIf_pc_toNat (s : State) {c : Bool} (h : c = true) :
    (s.skipIf c).pc.toNat = (s.pc.toNat + 2) % 65536 := by
  rw [State.skipIf_pc, if_pos h, word_add_two_toNat]

theorem State.skipIf_pc_eq (s : State) {c : Bool} (h : c = false) : (s.skipIf c).pc = s.pc := by
  rw [State.skipIf_pc, h]; rfl

theorem exec_skipEqImm (x : Reg) (nn : Byte) (s : State) :
    exec (.skipEqImm x nn) s = .next (s.skipIf (s.readV x == nn)) := rfl

theorem exec_skipNeImm (x : Reg) (nn : Byte) (s : State) :
    exec (.skipNeImm x nn) s = .next (s.skipIf (s.readV x != nn)) := rfl

theorem exec_skipEqReg (x y : Reg) (n : Nibble) (s : State) :
    exec (.skipEqReg x y n) s = .next (s.skipIf (s.readV x == s.readV y)) := rfl

theorem exec_skipNeReg (x y : Reg) (n : Nibble) (s : State) :
    exec (.skipNeReg x y n) s = .next (s.skipIf (s.readV x != s.readV y)) := rfl

/-- Settles O38: the skip on the comparison of Vx with nn. -/
theorem skipOnImmediate : Obligations.SkipOnImmediate := by
  intro x nn
  refine ⟨onlyWord_of_wellFormed (fun _ => rfl) (formatXNN_toNat 0x3#4 x nn),
    onlyWord_of_wellFormed (fun _ => rfl) (formatXNN_toNat 0x4#4 x nn), fun s => ⟨?_, ?_⟩⟩
  · exact ⟨_, exec_skipEqImm x nn s, changesOnly_skipIf s _,
      fun h => s.skipIf_pc_toNat (beq_iff_eq.mpr h), fun h => s.skipIf_pc_eq (beq_eq_false_iff_ne.mpr h)⟩
  · exact ⟨_, exec_skipNeImm x nn s, changesOnly_skipIf s _,
      fun h => s.skipIf_pc_toNat (bne_iff_ne.mpr h), fun h => s.skipIf_pc_eq (bne_eq_false_iff_eq.mpr h)⟩

/-- Settles O39: the skip on the comparison of Vx with Vy; the low nibble is bound by well-formedness alone. -/
theorem skipOnRegisters : Obligations.SkipOnRegisters := by
  intro x y n
  refine ⟨fun d w => ?_, fun d w => ?_, fun s => ⟨?_, ?_⟩⟩
  · rw [decode_eq_ok_iff, ← lowNibbleAdmitted_iff, encode, formatXYN_toNat]; rfl
  · rw [decode_eq_ok_iff, ← lowNibbleAdmitted_iff, encode, formatXYN_toNat]; rfl
  · exact ⟨_, exec_skipEqReg x y n s, changesOnly_skipIf s _,
      fun h => s.skipIf_pc_toNat (beq_iff_eq.mpr h), fun h => s.skipIf_pc_eq (beq_eq_false_iff_ne.mpr h)⟩
  · exact ⟨_, exec_skipNeReg x y n s, changesOnly_skipIf s _,
      fun h => s.skipIf_pc_toNat (bne_iff_ne.mpr h), fun h => s.skipIf_pc_eq (bne_eq_false_iff_eq.mpr h)⟩

/-! ## Return and call (R99, R101) -/

theorem exec_ret_of_cons {s : State} {top : Word} {rest : List Word} (h : s.stack = top :: rest) :
    exec .ret s = .next ({ s with stack := rest }.writePc top) := by
  simp only [exec, execRet, State.pop, h]

theorem exec_ret_of_nil {s : State} (h : s.stack = []) :
    exec .ret s = .next (s.takeFault .stackUnderflow (encode .ret)) := by
  simp only [exec, execRet, State.pop, h]

theorem exec_call_of_room {s : State} (nnn : Addr12) (h : stackFull s.cfg.stackDepth s.stack = false) :
    exec (.call nnn) s = .next ({ s with stack := s.pc :: s.stack }.writePc (addrOf nnn)) := by
  simp only [exec, execCall, State.push, h, Bool.false_eq_true, if_false]

theorem exec_call_of_full {s : State} (nnn : Addr12) (h : stackFull s.cfg.stackDepth s.stack = true) :
    exec (.call nnn) s = .next (s.takeFault .stackOverflow (encode (.call nnn))) := by
  simp only [exec, execCall, State.push, h, if_true]

theorem stackFull_eq_false {d : StackDepth} {st : List Word}
    (h : d = .unbounded ∨ ∃ N, d = .bounded N ∧ st.length < N) : stackFull d st = false := by
  obtain rfl | ⟨N, rfl, hN⟩ := h
  · rfl
  · exact decide_eq_false (Nat.not_le.mpr hN)

theorem stackFull_bounded_length (st : List Word) : stackFull (.bounded st.length) st = true :=
  decide_eq_true le_rfl

/-- Settles O35: the pop, or the fault on the empty stack. -/
theorem returnPopsOrUnderflows : Obligations.ReturnPopsOrUnderflows := by
  refine ⟨onlyWord_of_wellFormed (fun _ => rfl) rfl, fun s top rest hs => ?_, fun s hs => ?_⟩
  · exact ⟨_, exec_ret_of_cons hs, rfl, rfl, changesOnly_writePc_stack s rest top⟩
  · exact ⟨_, exec_ret_of_nil hs, rfl, rfl, changesOnly_takeFault s _ _⟩

/-- Settles O37: the push when there is room, or the fault on the full stack. -/
theorem callPushesOrOverflows : Obligations.CallPushesOrOverflows := by
  intro nnn
  refine ⟨onlyWord_of_wellFormed (fun _ => rfl) (formatNNN_toNat 0x2#4 nnn), fun s room => ?_, fun s full => ?_⟩
  · exact ⟨_, exec_call_of_room nnn (stackFull_eq_false room), addrOf_toNat nnn, rfl, changesOnly_writePc_stack s _ _⟩
  · have isFull : stackFull s.cfg.stackDepth s.stack = true := by rw [full]; exact stackFull_bounded_length s.stack
    exact ⟨_, encode (.call nnn), exec_call_of_full nnn isFull, rfl, rfl, formatNNN_toNat 0x2#4 nnn,
      changesOnly_takeFault s _ _⟩

/-! ## Keys (R134 to R137) -/

section
variable {s : State} {x : Reg}

theorem exec_skipKeyPressed_of_some {p : Bool} (h : s.keyPressed (s.readV x) = some p) :
    exec (.skipKeyPressed x) s = .next (s.skipIf p) := by
  simp only [exec, execSkipKeyPressed, h]

theorem exec_skipKeyPressed_of_none (h : s.keyPressed (s.readV x) = none) :
    exec (.skipKeyPressed x) s = .next (s.takeFault .keyIndexRange (encode (.skipKeyPressed x))) := by
  simp only [exec, execSkipKeyPressed, h]

theorem exec_skipKeyReleased_of_some {p : Bool} (h : s.keyPressed (s.readV x) = some p) :
    exec (.skipKeyReleased x) s = .next (s.skipIf (!p)) := by
  simp only [exec, execSkipKeyReleased, h]

theorem exec_skipKeyReleased_of_none (h : s.keyPressed (s.readV x) = none) :
    exec (.skipKeyReleased x) s = .next (s.takeFault .keyIndexRange (encode (.skipKeyReleased x))) := by
  simp only [exec, execSkipKeyReleased, h]

theorem exec_awaitKey_of_some {k : Fin 16} (h : s.lowestPressedKey = some k) :
    exec (.awaitKey x) s = .next (s.writeV x (BitVec.ofNat 8 k.val)) := by
  simp only [exec, execAwaitKey, h]

theorem exec_awaitKey_of_none (h : s.lowestPressedKey = none) : exec (.awaitKey x) s = .next s.rewindPc := by
  simp only [exec, execAwaitKey, h]

end

/-- The key of number b mod 16 (R134). -/
theorem eq_keyOf {k : Fin 16} {b : Byte} (h : k.val = b.toNat % 16) : k = keyOf b := Fin.ext h

/-- The statement's reading of R134 is what the machine tests. -/
theorem State.keyPressed_of_selectsKey {s : State} {b : Byte} {p : Bool} (h : selectsKey s b p) :
    s.keyPressed b = some p := by
  obtain ⟨k, hk, rfl⟩ | ⟨hb, hmask, k, hk, rfl⟩ | ⟨hb, hnot, rfl⟩ := h
  · have inRange : b.toNat < 16 := hk ▸ k.isLt
    rw [State.keyPressed, if_pos inRange, eq_keyOf (k := k) (b := b) (by omega)]
  · rw [State.keyPressed, if_neg (Nat.not_lt.mpr hb), hmask, eq_keyOf hk]
  · rw [State.keyPressed, if_neg (Nat.not_lt.mpr hb), hnot]

/-- Settles O55: the skip on the selected key, or the fault under the policy fault. -/
theorem keySkipsTestTheSelectedKey : Obligations.KeySkipsTestTheSelectedKey := by
  intro x
  refine ⟨onlyWord_lowByte 0xE#4 x 0x9E#8 (fun _ => rfl) rfl, onlyWord_lowByte 0xE#4 x 0xA1#8 (fun _ => rfl) rfl,
    fun s p selects => ⟨?_, ?_⟩, fun s range policy => ⟨?_, ?_⟩⟩
  · refine ⟨_, exec_skipKeyPressed_of_some (s.keyPressed_of_selectsKey selects), changesOnly_skipIf s p, ?_⟩
    cases p with
    | true => exact s.skipIf_pc_toNat rfl
    | false => rfl
  · refine ⟨_, exec_skipKeyReleased_of_some (s.keyPressed_of_selectsKey selects), changesOnly_skipIf s _, ?_⟩
    cases p with
    | true => rfl
    | false => exact s.skipIf_pc_toNat rfl
  · have faults := (s.keyPressed_none_iff _).mpr ⟨range, policy⟩
    refine ⟨_, _, exec_skipKeyPressed_of_none faults, rfl, rfl, ?_, changesOnly_takeFault s _ _⟩
    rw [encode, formatXNN_toNat]; exact Nat.add_right_comm _ _ _
  · have faults := (s.keyPressed_none_iff _).mpr ⟨range, policy⟩
    refine ⟨_, _, exec_skipKeyReleased_of_none faults, rfl, rfl, ?_, changesOnly_takeFault s _ _⟩
    rw [encode, formatXNN_toNat]; exact Nat.add_right_comm _ _ _

/-- Settles O56: the lowest pressed key, or the rewind when none is pressed. -/
theorem awaitKeyTakesTheLowestPressedKey : Obligations.AwaitKeyTakesTheLowestPressedKey := by
  intro x
  refine ⟨onlyWord_lowByte 0xF#4 x 0x0A#8 (fun _ => rfl) rfl, fun s k pressed lowest => ?_, fun s released => ?_⟩
  · refine ⟨_, exec_awaitKey_of_some ((s.lowestPressedKey_some k).mpr ⟨pressed, lowest⟩), ?_, changesOnly_writeV s x _⟩
    rw [State.readV_writeV_same, BitVec.toNat_ofNat, Nat.mod_eq_of_lt (by omega)]
  · refine ⟨_, exec_awaitKey_of_none (s.lowestPressedKey_none.mpr released), ?_, changesOnly_writePc s _⟩
    rw [State.rewindPc_pc, BitVec.toNat_sub, Nat.add_comm]
    rfl

end Sys2Proof.Machine
end

section
/-! PROOFS. Address bits above memory: every operation takes states that differ by multiples of 4096 in their addresses
to states so related (rules R26, R29, R57). -/

namespace Sys2Proof.Machine

/-! ## Congruent addresses -/

theorem congruent_refl (a : Word) : congruent a a := rfl

theorem congruent_iff (a b : Word) : congruent a b ↔ a.toNat % 4096 = b.toNat % 4096 := Iff.rfl

/-- 65536 is a multiple of 4096, so the wrap of a 16-bit sum cannot be seen (D3, D4). -/
theorem congruent_add {a b : Word} (c : Word) (h : congruent a b) : congruent (a + c) (b + c) := by
  rw [congruent_iff] at h ⊢
  rw [BitVec.toNat_add, BitVec.toNat_add]
  omega

theorem congruent_sub {a b : Word} (c : Word) (h : congruent a b) : congruent (a - c) (b - c) := by
  rw [congruent_iff] at h ⊢
  rw [BitVec.toNat_sub, BitVec.toNat_sub]
  omega

theorem location_add {a b : Word} (k : Nat) (h : congruent a b) : location (a.toNat + k) = location (b.toNat + k) :=
  Nat.ModEq.add_right k h

theorem stackFull_of_length {d : StackDepth} {st st' : List Word} (h : st.length = st'.length) :
    stackFull d st = stackFull d st' := by
  cases d with
  | unbounded => rfl
  | bounded n => rw [stackFull, stackFull, h]

/-- A store at a congruent address is the same store. -/
theorem State.memWriteList_mem_congr {a a' : Nat} {bs : List Byte} {s s' : State} (ha : location a = location a')
    (hmem : s'.mem = s.mem) (hcfg : s'.cfg = s.cfg) : (s'.memWriteList a' bs).mem = (s.memWriteList a bs).mem := by
  induction bs generalizing a a' s s' with
  | nil => exact hmem
  | cons b rest ih =>
    refine ih (Nat.ModEq.add_right 1 ha) ?_ hcfg
    rw [State.memWrite_mem, State.memWrite_mem, hmem, hcfg, ha]

namespace AlikeModuloMemory

variable {s s' : State} (h : AlikeModuloMemory s s')
include h

/-! ## What alike states read -/

theorem readV (x : Reg) : s'.readV x = s.readV x := by rw [State.readV, State.readV, h.v]

theorem readKey (k : Fin 16) : s'.readKey k = s.readKey k := by rw [State.readKey, State.readKey, h.key]

theorem memRead {a a' : Nat} (ha : location a = location a') : s'.memRead a' = s.memRead a := by
  rw [State.memRead, State.memRead, h.mem, h.cfg, ha]

theorem memRead_data (k : Nat) : s'.memRead (s'.dataBase + k) = s.memRead (s.dataBase + k) :=
  h.memRead (location_add k h.i)

theorem fetchWord : s'.fetchWord = s.fetchWord := by
  rw [State.fetchWord, State.fetchWord, h.memRead h.pc, h.memRead (location_add 1 h.pc)]

theorem regsUpTo (x : Reg) : s'.regsUpTo x = s.regsUpTo x := by rw [State.regsUpTo, State.regsUpTo, h.v]

theorem keyPressed (b : Byte) : s'.keyPressed b = s.keyPressed b := by
  simp only [State.keyPressed, h.readKey, h.cfg]

theorem lowestPressedKey : s'.lowestPressedKey = s.lowestPressedKey := by
  simp only [State.lowestPressedKey, funext h.readKey]

theorem nextRandom : s'.nextRandom = s.nextRandom := by
  simp only [State.nextRandom, h.provider, h.drawn]

theorem drawnCanvas (x y : Reg) (n : Nibble) : s'.drawnCanvas x y n = s.drawnCanvas x y n := by
  simp only [State.drawnCanvas, h.readV, h.memRead_data, h.fb]

theorem stackFull : stackFull s'.cfg.stackDepth s'.stack = stackFull s.cfg.stackDepth s.stack := by
  rw [h.cfg, stackFull_of_length h.stack.length_eq]

theorem status_running_iff : s'.status = .running ↔ s.status = .running := by
  have alike := h.status
  cases hs : s.status <;> cases hs' : s'.status <;> simp_all [statusAlike]

/-! ## Updates of alike states -/

theorem writeV (x : Reg) (b : Byte) : AlikeModuloMemory (s.writeV x b) (s'.writeV x b) :=
  { h with v := by rw [State.writeV_v, State.writeV_v, h.v] }

theorem writePc {a a' : Word} (ha : congruent a a') : AlikeModuloMemory (s.writePc a) (s'.writePc a') :=
  { h with pc := ha }

theorem writeI {a a' : Word} (ha : congruent a a') : AlikeModuloMemory (s.writeI a) (s'.writeI a') :=
  { h with i := ha }

theorem withStack {st st' : List Word} (hst : List.Forall₂ congruent st st') :
    AlikeModuloMemory { s with stack := st } { s' with stack := st' } :=
  { h with stack := hst }

theorem writeDt (b : Byte) : AlikeModuloMemory (s.writeDt b) (s'.writeDt b) := { h with dt := rfl }

theorem writeSt (b : Byte) : AlikeModuloMemory (s.writeSt b) (s'.writeSt b) := { h with st := rfl }

theorem writeFb (f : FrameBuffer) : AlikeModuloMemory (s.writeFb f) (s'.writeFb f) := { h with fb := rfl }

theorem tick : AlikeModuloMemory s.tick s'.tick :=
  { h with
    dt := by rw [State.tick_dt, State.tick_dt, h.dt]
    st := by rw [State.tick_st, State.tick_st, h.st] }

theorem advancePc : AlikeModuloMemory s.advancePc s'.advancePc := h.writePc (congruent_add _ h.pc)

theorem rewindPc : AlikeModuloMemory s.rewindPc s'.rewindPc := h.writePc (congruent_sub _ h.pc)

theorem skipIf (c : Bool) : AlikeModuloMemory (s.skipIf c) (s'.skipIf c) := by
  cases c with
  | false => exact h
  | true => exact h.advancePc

theorem takeFault (c : FaultCause) (w : Word) : AlikeModuloMemory (s.takeFault c w) (s'.takeFault c w) :=
  { h.rewindPc with status := ⟨rfl, h.rewindPc.pc, rfl⟩ }

theorem memWriteList (bs : List Byte) :
    AlikeModuloMemory (s.memWriteList s.dataBase bs) (s'.memWriteList s'.dataBase bs) where
  mem := State.memWriteList_mem_congr h.i h.mem h.cfg
  v := by simpa using h.v
  i := by simpa using h.i
  pc := by simpa using h.pc
  stack := by simpa using h.stack
  dt := by simpa using h.dt
  st := by simpa using h.st
  fb := by simpa using h.fb
  key := by simpa using h.key
  status := by simpa using h.status
  cfg := by simpa using h.cfg
  provider := by simpa using h.provider
  drawn := by simpa using h.drawn

theorem loadRegs (x : Reg) : AlikeModuloMemory (s.loadRegs x s.dataBase) (s'.loadRegs x s'.dataBase) where
  mem := by simpa using h.mem
  v := by simp only [State.loadRegs_v, h.memRead_data, h.readV]
  i := by simpa using h.i
  pc := by simpa using h.pc
  stack := by simpa using h.stack
  dt := by simpa using h.dt
  st := by simpa using h.st
  fb := by simpa using h.fb
  key := by simpa using h.key
  status := by simpa using h.status
  cfg := by simpa using h.cfg
  provider := by simpa using h.provider
  drawn := by simpa using h.drawn

theorem consumeRandom : AlikeModuloMemory s.consumeRandom s'.consumeRandom := by
  have hp := h.provider
  cases hs : s.provider with
  | nil =>
    rw [hs] at hp
    simp only [State.consumeRandom, hs, hp]
    exact { h with provider := rfl, drawn := congrArg (· + 1) h.drawn }
  | cons b rest =>
    rw [hs] at hp
    simp only [State.consumeRandom, hs, hp]
    exact { h with provider := rfl }

/-- Both orders of the flag write and the result write read registers only (R108). -/
theorem flagged (flag : Byte → Byte → Bool) (result : Byte → Byte → Byte) (x y : Reg) :
    AlikeModuloMemory (s.flagged flag result x y) (s'.flagged flag result x y) := by
  have hF := h.writeV vF (flagByte (flag (s.readV x) (s.readV y)))
  simp only [State.flagged, h.cfg]
  split
  · simp only [State.flaggedLatched, h.readV]
    exact hF.writeV x _
  · simp only [State.flaggedSequential, h.readV, hF.readV]
    exact hF.writeV x _

theorem flaggedLatched (flag : Byte → Byte → Bool) (result : Byte → Byte → Byte) (x y : Reg) :
    AlikeModuloMemory (s.flaggedLatched flag result x y) (s'.flaggedLatched flag result x y) := by
  simp only [State.flaggedLatched, h.readV]
  exact (h.writeV vF _).writeV x _

/-! ## Instructions and steps -/

theorem exec_ret_alike : ∃ t t', exec .ret s = .next t ∧ exec .ret s' = .next t' ∧ AlikeModuloMemory t t' := by
  have hst := h.stack
  cases hs : s.stack with
  | nil =>
    rw [hs] at hst
    exact ⟨_, _, exec_ret_of_nil hs, exec_ret_of_nil (List.forall₂_nil_left_iff.mp hst), h.takeFault _ _⟩
  | cons top rest =>
    rw [hs] at hst
    obtain ⟨top', rest', htop, hrest, hs'⟩ := List.forall₂_cons_left_iff.mp hst
    exact ⟨_, _, exec_ret_of_cons hs, exec_ret_of_cons hs', (h.withStack hrest).writePc htop⟩

theorem exec_call_alike (nnn : Addr12) :
    ∃ t t', exec (.call nnn) s = .next t ∧ exec (.call nnn) s' = .next t' ∧ AlikeModuloMemory t t' := by
  cases hfull : Machine.stackFull s.cfg.stackDepth s.stack with
  | true => exact ⟨_, _, exec_call_of_full nnn hfull, exec_call_of_full nnn (h.stackFull.trans hfull), h.takeFault _ _⟩
  | false =>
    exact ⟨_, _, exec_call_of_room nnn hfull, exec_call_of_room nnn (h.stackFull.trans hfull),
      (h.withStack (.cons h.pc h.stack)).writePc (congruent_refl _)⟩

theorem keyPressed_readV (x : Reg) : s'.keyPressed (s'.readV x) = s.keyPressed (s.readV x) := by
  rw [h.readV, h.keyPressed]

/-- Every instruction takes alike states to alike states. -/
theorem exec_alike (i : Instr) : ∃ t t', exec i s = .next t ∧ exec i s' = .next t' ∧ AlikeModuloMemory t t' := by
  cases i with
  | clear => exact ⟨_, _, rfl, rfl, h.writeFb _⟩
  | ret => exact h.exec_ret_alike
  | call nnn => exact h.exec_call_alike nnn
  | jump nnn => exact ⟨_, _, rfl, rfl, h.writePc (congruent_refl _)⟩
  | jumpOffset nnn => exact ⟨_, _, rfl, rfl, by rw [h.readV]; exact h.writePc (congruent_refl _)⟩
  | skipEqImm x nn | skipNeImm x nn => exact ⟨_, _, rfl, rfl, by rw [h.readV]; exact h.skipIf _⟩
  | skipEqReg x y n | skipNeReg x y n => exact ⟨_, _, rfl, rfl, by rw [h.readV, h.readV]; exact h.skipIf _⟩
  | loadImm x nn => exact ⟨_, _, rfl, rfl, h.writeV x nn⟩
  | addImm x nn => exact ⟨_, _, rfl, rfl, by rw [h.readV]; exact h.writeV x _⟩
  | copy x y => exact ⟨_, _, rfl, rfl, by rw [h.readV]; exact h.writeV x _⟩
  | orReg x y | andReg x y | xorReg x y => exact ⟨_, _, rfl, rfl, by rw [h.readV, h.readV]; exact h.writeV x _⟩
  | addReg x y => exact ⟨_, _, rfl, rfl, h.flaggedLatched _ _ x y⟩
  | sub x y | subn x y => exact ⟨_, _, rfl, rfl, h.flagged _ _ x y⟩
  | shiftRight x y | shiftLeft x y => exact ⟨_, _, rfl, rfl, h.flagged _ _ x x⟩
  | loadIndex nnn => exact ⟨_, _, rfl, rfl, h.writeI (congruent_refl _)⟩
  | addIndex x => exact ⟨_, _, rfl, rfl, by rw [h.readV]; exact h.writeI (congruent_add _ h.i)⟩
  | fontAddress x => exact ⟨_, _, rfl, rfl, by rw [h.readV]; exact h.writeI (congruent_refl _)⟩
  | randomAnd x nn => exact ⟨_, _, rfl, rfl, by rw [h.nextRandom]; exact h.consumeRandom.writeV x _⟩
  | draw x y n => exact ⟨_, _, rfl, rfl, by rw [h.drawnCanvas]; exact (h.writeFb _).writeV vF _⟩
  | bcdStore x => exact ⟨_, _, rfl, rfl, by rw [h.readV]; exact h.memWriteList _⟩
  | storeBlock x => exact ⟨_, _, rfl, rfl, by rw [h.regsUpTo]; exact h.memWriteList _⟩
  | loadBlock x => exact ⟨_, _, rfl, rfl, h.loadRegs x⟩
  | readDelay x => exact ⟨_, _, rfl, rfl, by rw [h.dt]; exact h.writeV x _⟩
  | writeDelay x => exact ⟨_, _, rfl, rfl, by rw [h.readV]; exact h.writeDt _⟩
  | writeSound x => exact ⟨_, _, rfl, rfl, by rw [h.readV]; exact h.writeSt _⟩
  | awaitKey x =>
    cases hk : s.lowestPressedKey with
    | none => exact ⟨_, _, exec_awaitKey_of_none hk, exec_awaitKey_of_none (h.lowestPressedKey.trans hk), h.rewindPc⟩
    | some k => exact ⟨_, _, exec_awaitKey_of_some hk, exec_awaitKey_of_some (h.lowestPressedKey.trans hk), h.writeV x _⟩
  | skipKeyPressed x =>
    cases hk : s.keyPressed (s.readV x) with
    | none =>
      exact ⟨_, _, exec_skipKeyPressed_of_none hk, exec_skipKeyPressed_of_none ((h.keyPressed_readV x).trans hk),
        h.takeFault _ _⟩
    | some p =>
      exact ⟨_, _, exec_skipKeyPressed_of_some hk, exec_skipKeyPressed_of_some ((h.keyPressed_readV x).trans hk),
        h.skipIf p⟩
  | skipKeyReleased x =>
    cases hk : s.keyPressed (s.readV x) with
    | none =>
      exact ⟨_, _, exec_skipKeyReleased_of_none hk, exec_skipKeyReleased_of_none ((h.keyPressed_readV x).trans hk),
        h.takeFault _ _⟩
    | some p =>
      exact ⟨_, _, exec_skipKeyReleased_of_some hk, exec_skipKeyReleased_of_some ((h.keyPressed_readV x).trans hk),
        h.skipIf _⟩

theorem completeCycle : AlikeModuloMemory (completeCycle s) (completeCycle s') := by
  by_cases hs : s.status = .running
  · rw [completeCycle_running s hs, completeCycle_running s' (h.status_running_iff.mpr hs)]
    exact h.tick
  · rw [completeCycle_faulted s hs, completeCycle_faulted s' fun hs' => hs (h.status_running_iff.mp hs')]
    exact h

end AlikeModuloMemory

/-- Settles O21: alike states fetch the same word, and every instruction and the tick keep them alike. -/
theorem addressBitsAboveMemoryAreUnobservable : Obligations.AddressBitsAboveMemoryAreUnobservable := by
  intro s s' t h hstep
  obtain ⟨running, u, hu, rfl⟩ := step_next s t hstep
  have sameDecode : decode s'.cfg.decode59 s'.fetchWord = decode s.cfg.decode59 s.fetchWord := by
    rw [h.cfg, h.fetchWord]
  obtain ⟨u', hstep', hu'⟩ := step_of_running s' (h.status_running_iff.mpr running)
  refine ⟨_, hstep', AlikeModuloMemory.completeCycle ?_⟩
  cases hu with
  | unmatched e hd =>
    cases hu' with
    | unmatched => exact h.advancePc
    | instr j _ hd' => rw [sameDecode, hd] at hd'; cases hd'
  | instr i u hd he =>
    cases hu' with
    | unmatched e hd' => rw [sameDecode, hd] at hd'; cases hd'
    | instr j u' hd' he' =>
      rw [sameDecode, hd] at hd'
      obtain rfl := Except.ok.inj hd'
      obtain ⟨v, v', hv, hv', alike⟩ := h.advancePc.exec_alike i
      obtain rfl : v = u := Host.Outcome.next.inj (hv.symm.trans he)
      obtain rfl : v' = u' := Host.Outcome.next.inj (hv'.symm.trans he')
      exact alike

end Sys2Proof.Machine
end

section
/-! PROOFS. The cycle driver: a step is the instruction and the tick, a fault leaves the state before it with the record
in the status, and the two idle loops change the timers alone. -/

namespace Sys2Proof.Machine

/-! ## One step, by what its word decodes to (R82, R85, R88) -/

section
variable {s t : State} {i : Instr}

theorem Executed.exec_of_decode (h : Executed s t) (hd : decode s.cfg.decode59 s.fetchWord = .ok i) :
    exec i s.advancePc = .next t := by
  cases h with
  | instr j t hj he =>
    obtain rfl := Except.ok.inj (hj.symm.trans hd)
    exact he
  | unmatched e he => rw [hd] at he; cases he

theorem step_of_exec (hs : s.status = .running) (hd : decode s.cfg.decode59 s.fetchWord = .ok i)
    (he : exec i s.advancePc = .next t) : step s = .next (completeCycle t) := by
  obtain ⟨u, hu, executed⟩ := step_of_running s hs
  obtain rfl := Host.Outcome.next.inj (he.symm.trans (executed.exec_of_decode hd))
  exact hu

theorem step_of_unmatched {e : DecodeReject} (hs : s.status = .running)
    (hd : decode s.cfg.decode59 s.fetchWord = .error e) : step s = .next s.advancePc.tick := by
  obtain ⟨u, hu, executed⟩ := step_of_running s hs
  cases executed with
  | instr i t hi he => rw [hd] at hi; cases hi
  | unmatched => rw [hu, completeCycle_running s.advancePc hs]

end

theorem changesOnly_tick (s : State) : changesOnly (fun p => p = .delay ∨ p = .sound) s s.tick := by
  intro p hp
  cases p with
  | delay => exact absurd (.inl rfl) hp
  | sound => exact absurd (.inr rfl) hp
  | _ => rfl

/-- Settles O9: the step completes the cycle of the state the instruction answers. -/
theorem stepRunsTheDecodedInstruction : Obligations.StepRunsTheDecodedInstruction := by
  intro s i hs hd
  obtain ⟨t, ht, -⟩ := exec_effect i s.advancePc
  have hstep := step_of_exec hs hd ht
  refine ⟨t, ht, fun faulted => ?_, fun running => ?_⟩
  · rw [hstep, completeCycle_faulted t faulted]
  · rw [completeCycle_running t running] at hstep
    exact ⟨t.tick, hstep, countDown_toNat t.dt, countDown_toNat t.st, rfl, changesOnly_tick t⟩

/-- Settles O10: the advanced PC and the tick. -/
theorem unmatchedWordIsANoOp : Obligations.UnmatchedWordIsANoOp := by
  intro s e hs hd
  exact ⟨_, step_of_unmatched hs hd, word_add_two_toNat s.pc, countDown_toNat s.dt, countDown_toNat s.st,
    changesOnly_trans (changesOnly_writePc s _) (changesOnly_tick s.advancePc)⟩

/-- Settles O11: the status alone decides. -/
theorem faultedCoreDoesNothing : Obligations.FaultedCoreDoesNothing :=
  fun _ _ hs => ⟨cycle_of_faulted hs, step_of_faulted hs⟩

/-- Settles O12: a running core executes its word, a faulted one halts. -/
theorem stepAnswersNextExactlyWhenRunning : Obligations.StepAnswersNextExactlyWhenRunning := by
  refine ⟨fun s => ⟨fun ⟨t, ht⟩ => (step_next s t ht).1, fun hs => ?_⟩, fun s r refused => ?_⟩
  · obtain ⟨t, ht, -⟩ := step_of_running s hs
    exact ⟨_, ht⟩
  · cases hs : s.status with
    | running =>
      obtain ⟨t, ht, -⟩ := step_of_running s hs
      rw [ht] at refused; cases refused
    | faulted r' => rw [step_of_faulted hs] at refused; cases refused

/-! ## The timers after a completed cycle (R36, R90) -/

theorem exec_writeDelay (x : Reg) (s : State) : exec (.writeDelay x) s = .next (s.writeDt (s.readV x)) := rfl

theorem exec_writeSound (x : Reg) (s : State) : exec (.writeSound x) s = .next (s.writeSt (s.readV x)) := rfl

section
variable {s u : State} (h : Executed s u)
include h

theorem Executed.dt_of_writeDelay {x : Reg} (hd : decode s.cfg.decode59 s.fetchWord = .ok (.writeDelay x)) :
    u.dt = s.readV x := by
  obtain rfl := Host.Outcome.next.inj ((exec_writeDelay x s.advancePc).symm.trans (h.exec_of_decode hd))
  rfl

theorem Executed.st_of_writeSound {x : Reg} (hd : decode s.cfg.decode59 s.fetchWord = .ok (.writeSound x)) :
    u.st = s.readV x := by
  obtain rfl := Host.Outcome.next.inj ((exec_writeSound x s.advancePc).symm.trans (h.exec_of_decode hd))
  rfl

theorem Executed.dt_eq (hd : ∀ x, decode s.cfg.decode59 s.fetchWord ≠ .ok (.writeDelay x)) : u.dt = s.dt := by
  cases h with
  | instr i u hi he => exact (effect_of_exec i _ u he).dt_eq fun x hx => hd x (hx ▸ hi)
  | unmatched => rfl

theorem Executed.st_eq (hd : ∀ x, decode s.cfg.decode59 s.fetchWord ≠ .ok (.writeSound x)) : u.st = s.st := by
  cases h with
  | instr i u hi he => exact (effect_of_exec i _ u he).st_eq fun x hx => hd x (hx ▸ hi)
  | unmatched => rfl

end

/-- Settles O13: the completed cycle is the tick of the state the word leads to. -/
theorem everyCompletedCycleTicksOnce : Obligations.EveryCompletedCycleTicksOnce := by
  intro s t hstep ht
  obtain ⟨-, u, hu, rfl⟩ := step_next s t hstep
  rw [completeCycle_status] at ht
  rw [completeCycle_running u ht, State.tick_dt, State.tick_st, countDown_toNat, countDown_toNat]
  refine ⟨fun x hd => ?_, fun hd => ?_, fun x hd => ?_, fun hd => ?_⟩
  · rw [hu.dt_of_writeDelay hd]
  · rw [hu.dt_eq hd]
  · rw [hu.st_of_writeSound hd]
  · rw [hu.st_eq hd]

/-! ## Faults (R138 to R145) -/

/-- The condition, on the state an instruction finds, under which it takes a fault with the cause. -/
def raises (i : Instr) (s : State) : FaultCause → Prop
  | .stackUnderflow => i = .ret ∧ s.stack = []
  | .stackOverflow => (∃ nnn, i = .call nnn) ∧ stackFull s.cfg.stackDepth s.stack = true
  | .keyIndexRange => ∃ x, (i = .skipKeyPressed x ∨ i = .skipKeyReleased x) ∧
      16 ≤ (s.readV x).toNat ∧ s.cfg.keyIndexPolicy = .fault

theorem exec_of_raises {i : Instr} {s : State} {c : FaultCause} (h : raises i s c) :
    exec i s = .next (s.takeFault c (encode i)) := by
  cases c with
  | stackUnderflow =>
    obtain ⟨rfl, hs⟩ := h
    exact exec_ret_of_nil hs
  | stackOverflow =>
    obtain ⟨⟨nnn, rfl⟩, full⟩ := h
    exact exec_call_of_full nnn full
  | keyIndexRange =>
    obtain ⟨x, rfl | rfl, range⟩ := h
    · exact exec_skipKeyPressed_of_none ((s.keyPressed_none_iff _).mpr range)
    · exact exec_skipKeyReleased_of_none ((s.keyPressed_none_iff _).mpr range)

/-- The only effects that leave a running core faulted are the three faults. -/
theorem Effect.of_faulted {i : Instr} {s t : State} {r : FaultRecord} (e : Effect i s t) (hs : s.status = .running)
    (ht : t.status = .faulted r) : raises i s r.cause ∧ t = s.takeFault r.cause (encode i) := by
  cases e with
  | underflow h hnil =>
    obtain rfl := Status.faulted.inj ht
    exact ⟨⟨h, hnil⟩, rfl⟩
  | overflow nnn h full =>
    obtain rfl := Status.faulted.inj ht
    exact ⟨⟨⟨nnn, h⟩, full⟩, rfl⟩
  | keyRange x h range =>
    obtain rfl := Status.faulted.inj ht
    exact ⟨⟨x, h, range⟩, rfl⟩
  | _ => simp [hs] at ht

@[simp] theorem State.rewindPc_advancePc (s : State) : s.advancePc.rewindPc = s := by
  rw [State.rewindPc, State.advancePc_pc, advance_then_rewind]
  rfl

/-- A fault undoes the pre-increment, so the status is all it changes of the state before the cycle (R144). -/
theorem State.takeFault_advancePc (s : State) (c : FaultCause) (w : Word) :
    s.advancePc.takeFault c w = { s with status := .faulted ⟨c, s.pc, w⟩ } := by
  rw [State.takeFault, State.rewindPc_advancePc]

theorem completeCycle_of_faulted {t : State} {r : FaultRecord} (h : t.status = .faulted r) : completeCycle t = t :=
  completeCycle_faulted t (by rw [h]; exact nofun)

/-- A step that ends faulted took the fault its instruction raises. -/
theorem step_faulted {s t : State} {r : FaultRecord} (hstep : step s = .next t) (ht : t.status = .faulted r) :
    ∃ i, decode s.cfg.decode59 s.fetchWord = .ok i ∧ raises i s.advancePc r.cause ∧
      t = { s with status := .faulted ⟨r.cause, s.pc, encode i⟩ } := by
  obtain ⟨hs, u, hu, rfl⟩ := step_next s t hstep
  rw [completeCycle_status] at ht
  cases hu with
  | instr i u hd he =>
    obtain ⟨hr, rfl⟩ := (effect_of_exec i _ u he).of_faulted hs ht
    exact ⟨i, hd, hr, by rw [completeCycle_of_faulted ht, State.takeFault_advancePc]⟩
  | unmatched => exact absurd (hs.symm.trans ht) nofun

theorem step_of_raises {s : State} {i : Instr} {c : FaultCause} (hs : s.status = .running)
    (hd : decode s.cfg.decode59 s.fetchWord = .ok i) (h : raises i s.advancePc c) :
    step s = .next { s with status := .faulted ⟨c, s.pc, encode i⟩ } := by
  rw [step_of_exec hs hd (exec_of_raises h), State.takeFault_advancePc, completeCycle_of_faulted rfl]

/-- Settles O14: the fault leaves the state before the cycle, and the recorded word is the one decoded. -/
theorem faultsArePrecise : Obligations.FaultsArePrecise := by
  intro s t ⟨c, a, w⟩ hstep ht
  obtain ⟨i, hd, -, rfl⟩ := step_faulted hstep ht
  cases ht
  exact ⟨rfl, rfl, encode_of_decode hd⟩

/-- A stack within its bound is full exactly when it has as many entries as the bound (R30, R31). -/
theorem stackFull_iff_of_within {d : StackDepth} {st : List Word} (h : stackWithinDepth d st) :
    stackFull d st = true ↔ d = .bounded st.length := by
  cases d with
  | unbounded => exact ⟨nofun, nofun⟩
  | bounded n =>
    have within : st.length ≤ n := h
    rw [stackFull, decide_eq_true_iff, StackDepth.bounded.injEq]
    omega

theorem decode_call_iff (d : Decode59) (w : Word) : (∃ nnn, decode d w = .ok (.call nnn)) ↔ w.toNat / 0x1000 = 2 := by
  constructor
  · rintro ⟨nnn, hd⟩
    have hw := ((callPushesOrOverflows nnn).1 d w).mp hd
    have := nnn.isLt
    omega
  · intro hw
    refine ⟨fieldNNN w, ((callPushesOrOverflows _).1 d w).mpr ?_⟩
    rw [fieldNNN_toNat]
    omega

theorem decode_keySkip_iff (d : Decode59) (w : Word) (x : Reg) :
    (decode d w = .ok (.skipKeyPressed x) ∨ decode d w = .ok (.skipKeyReleased x)) ↔
      (w.toNat = 0xE09E + 0x100 * x.val ∨ w.toNat = 0xE0A1 + 0x100 * x.val) :=
  or_congr ((keySkipsTestTheSelectedKey x).1 d w) ((keySkipsTestTheSelectedKey x).2.1 d w)

/-- The condition rule R138 lists for a cause is that the fetched word decodes to an instruction that raises it. -/
theorem faultCondition_iff {s : State} (hinv : StateInv s) (c : FaultCause) :
    faultCondition s c ↔ ∃ i, decode s.cfg.decode59 s.fetchWord = .ok i ∧ raises i s.advancePc c := by
  cases c with
  | stackUnderflow =>
    have isRet : s.fetchWord = 0x00EE#16 ↔ decode s.cfg.decode59 s.fetchWord = .ok .ret := by
      rw [decode_eq_ok_iff, BitVec.toNat_inj]
      exact (and_iff_left rfl).symm
    exact ⟨fun ⟨hw, hs⟩ => ⟨.ret, isRet.mp hw, rfl, hs⟩, fun ⟨_, hd, hi, hs⟩ => ⟨isRet.mpr (hi ▸ hd), hs⟩⟩
  | stackOverflow =>
    have full := stackFull_iff_of_within hinv.stack
    have isCall := decode_call_iff s.cfg.decode59 s.fetchWord
    constructor
    · rintro ⟨hw, hs⟩
      obtain ⟨nnn, hd⟩ := isCall.mpr hw
      exact ⟨_, hd, ⟨nnn, rfl⟩, full.mpr hs⟩
    · rintro ⟨_, hd, ⟨nnn, rfl⟩, hs⟩
      exact ⟨isCall.mp ⟨nnn, hd⟩, full.mp hs⟩
  | keyIndexRange =>
    have isKeySkip := decode_keySkip_iff s.cfg.decode59 s.fetchWord
    constructor
    · rintro ⟨x, hw, range⟩
      obtain hd | hd := (isKeySkip x).mpr hw
      · exact ⟨_, hd, x, .inl rfl, range⟩
      · exact ⟨_, hd, x, .inr rfl, range⟩
    · rintro ⟨_, hd, x, rfl | rfl, range⟩
      · exact ⟨x, (isKeySkip x).mp (.inl hd), range⟩
      · exact ⟨x, (isKeySkip x).mp (.inr hd), range⟩

/-- Settles O15: a fault is the instruction's own, and the listed condition makes its instruction raise it. -/
theorem faultsAriseExactlyAsListed : Obligations.FaultsAriseExactlyAsListed := by
  intro s t hinv hs hstep c
  rw [faultCondition_iff hinv]
  constructor
  · rintro ⟨r, ht, rfl⟩
    obtain ⟨i, hd, hr, -⟩ := step_faulted hstep ht
    exact ⟨i, hd, hr⟩
  · rintro ⟨i, hd, hr⟩
    obtain rfl := Host.Outcome.next.inj (hstep.symm.trans (step_of_raises hs hd hr))
    exact ⟨_, rfl, rfl⟩

/-! ## Transactions and the report of a cycle (R49, R91, R147) -/

/-- Settles O16: load and setKey do not write the status, a cycle halts, construct replaces it. -/
theorem onlyConstructLeavesFaulted : Obligations.OnlyConstructLeavesFaulted := by
  intro s r hs
  have halts : transact .cycle s = s := congrArg Prod.fst (cycle_of_faulted hs)
  refine ⟨fun op hop => ?_, halts, reconstruct_status s⟩
  cases op with
  | construct => exact absurd rfl hop
  | load bytes base =>
    obtain ht | ht := transact_load s bytes base <;> rw [ht]
    · rw [State.memWriteList_status, hs]
    · exact hs
  | setKey index pressed =>
    obtain ht | ht := transact_setKey s index pressed <;> rw [ht]
    · exact hs
    · exact hs
  | cycle => rw [halts, hs]

theorem cycleReport_eq_ok_iff (t : State) : cycleReport t = .ok ↔ t.status = .running := by
  cases h : t.status <;> simp [cycleReport, h]

theorem cycleReport_eq_fault_iff (t : State) (r : FaultRecord) : cycleReport t = .fault r ↔ t.status = .faulted r := by
  cases h : t.status <;> simp [cycleReport, h]

/-- Settles O17: the report reads the status the step leaves. -/
theorem cycleReportsItsResult : Obligations.CycleReportsItsResult := by
  refine fun s => ⟨fun hs => ?_, fun r hs => by rw [cycle_of_faulted hs]⟩
  obtain ⟨u, hstep, -⟩ := step_of_running s hs
  refine ⟨_, hstep, ?_⟩
  rw [cycle_of_next hstep]
  exact ⟨rfl, cycleReport_eq_ok_iff _, cycleReport_eq_fault_iff _⟩

/-! ## Idle loops (R137, R164) -/

theorem core_run_succ {s t : State} (n : Nat) (h : step s = .next t) :
    Sys2Proof.core.run (n + 1) s = Sys2Proof.core.run n t := by
  have first : Sys2Proof.core.step s = .next t := h
  simp only [Host.Core.run, first]

/-- A condition under which a step is the tick alone, and which the tick keeps, lasts for every number of steps. -/
theorem run_of_idle {P : State → Prop} (hstep : ∀ s, P s → step s = .next s.tick) (htick : ∀ s, P s → P s.tick)
    (n : Nat) (s : State) (h : P s) : Sys2Proof.core.run n s = .next (State.tick^[n] s) ∧ P (State.tick^[n] s) := by
  induction n generalizing s with
  | zero => exact ⟨rfl, h⟩
  | succ n ih =>
    rw [core_run_succ n (hstep s h)]
    exact ih s.tick (htick s h)

/-- n ticks count both timers down by n, floored at 0, and change nothing else (R36). -/
theorem tick_iterate (n : Nat) (s : State) :
    (State.tick^[n] s).dt.toNat = s.dt.toNat - n ∧ (State.tick^[n] s).st.toNat = s.st.toNat - n ∧
      changesOnly (fun p => p = .delay ∨ p = .sound) s (State.tick^[n] s) := by
  induction n generalizing s with
  | zero => exact ⟨rfl, rfl, fun p _ => by cases p <;> rfl⟩
  | succ n ih =>
    obtain ⟨hdt, hst, hframe⟩ := ih s.tick
    rw [State.tick_dt, countDown_toNat] at hdt
    rw [State.tick_st, countDown_toNat] at hst
    rw [Function.iterate_succ_apply]
    refine ⟨by omega, by omega, fun p hp => ?_⟩
    exact changesOnly_trans (changesOnly_tick s) hframe p fun named => hp (named.elim id id)

/-- The jump at A to A writes back the PC it was fetched from. -/
theorem step_of_atSelfJump {s : State} (h : atSelfJump s) : step s = .next s.tick := by
  obtain ⟨hs, hpc, hw⟩ := h
  have hnnn : (BitVec.ofNat 12 s.pc.toNat).toNat = s.pc.toNat := Nat.mod_eq_of_lt hpc
  have target : addrOf (BitVec.ofNat 12 s.pc.toNat) = s.pc := BitVec.eq_of_toNat_eq (by rw [addrOf_toNat, hnnn])
  have hd : decode s.cfg.decode59 s.fetchWord = .ok (.jump (BitVec.ofNat 12 s.pc.toNat)) :=
    ((jumpSetsPc _).1 _ _).mpr (by rw [hnnn]; exact hw)
  have he : exec (.jump (BitVec.ofNat 12 s.pc.toNat)) s.advancePc = .next s := by rw [exec_jump, target]; rfl
  rw [step_of_exec hs hd he, completeCycle_running s hs]

theorem atSelfJump_tick {s : State} (h : atSelfJump s) : atSelfJump s.tick := h

/-- Settles O30: each step of the self-jump is the tick alone. -/
theorem selfJumpRepeatsForever : Obligations.SelfJumpRepeatsForever := by
  intro s n h
  obtain ⟨hrun, hjump⟩ := run_of_idle (fun _ => step_of_atSelfJump) (fun _ => atSelfJump_tick) n s h
  obtain ⟨hdt, hst, hframe⟩ := tick_iterate n s
  exact ⟨_, hrun, hdt, hst, hframe, hjump⟩

/-- A running core about to execute `await-key Vx` with no key pressed. -/
def atIdleAwaitKey (x : Reg) (s : State) : Prop :=
  s.status = .running ∧ s.fetchWord.toNat = 0xF00A + 0x100 * x.val ∧ ∀ k, s.readKey k = false

/-- The rewind undoes the pre-increment. -/
theorem step_of_atIdleAwaitKey {x : Reg} {s : State} (h : atIdleAwaitKey x s) : step s = .next s.tick := by
  obtain ⟨hs, hw, released⟩ := h
  have hd : decode s.cfg.decode59 s.fetchWord = .ok (.awaitKey x) :=
    ((awaitKeyTakesTheLowestPressedKey x).1 _ _).mpr hw
  have he : exec (.awaitKey x) s.advancePc = .next s.advancePc.rewindPc :=
    exec_awaitKey_of_none (s.advancePc.lowestPressedKey_none.mpr released)
  rw [step_of_exec hs hd he, State.rewindPc_advancePc, completeCycle_running s hs]

theorem atIdleAwaitKey_tick {x : Reg} {s : State} (h : atIdleAwaitKey x s) : atIdleAwaitKey x s.tick := h

/-- Settles O31: each step of the waiting instruction is the tick alone. -/
theorem awaitKeyWaitsWhileNoKeyIsPressed : Obligations.AwaitKeyWaitsWhileNoKeyIsPressed := by
  intro s x n hs hw released
  obtain ⟨hrun, -⟩ :=
    run_of_idle (fun _ => step_of_atIdleAwaitKey) (fun _ => atIdleAwaitKey_tick) n s ⟨hs, hw, released⟩
  exact ⟨_, hrun, tick_iterate n s⟩

end Sys2Proof.Machine
end

section
/-! PROOFS. Memory: addresses modulo 4096, fetch after store, the block transfers, and `load`. -/

namespace Sys2Proof.Machine

/-! ## The address decoder and the fetch (R57, R74) -/

theorem State.memWrite_mod (s : State) (a : Nat) (b : Byte) : s.memWrite (a % 4096) b = s.memWrite a b := by
  rw [State.memWrite, State.memWrite, location, location, Nat.mod_mod]

/-- Settles O5: the address decoder reduces, and reducing twice is reducing once. -/
theorem addressesAreTakenModulo4096 : Obligations.AddressesAreTakenModulo4096 :=
  fun s a => ⟨(s.memRead_mod a).symm, fun b => (s.memWrite_mod a b).symm⟩

/-- Settles O8: the fetch reads the two stored bytes back. -/
theorem fetchSeesEarlierStores : Obligations.FetchSeesEarlierStores := by
  intro s hi lo
  have readBack := State.memRead_memWriteList_inside s.pc.toNat [hi, lo] s
  have first := readBack 0 (Nat.succ_pos 1) (show 2 ≤ 4096 by decide)
  have second := readBack 1 (Nat.lt_succ_self 1) (show 2 ≤ 4096 by decide)
  rw [State.fetchWord_toNat, State.memWriteList_pc, second]
  exact congrArg (fun b : Byte => b.toNat * 256 + lo.toNat) first

/-! ## The block transfers (R127 to R129) -/

theorem exec_bcdStore (x : Reg) (s : State) :
    exec (.bcdStore x) s = .next (s.memWriteList s.dataBase (bcdDigits (s.readV x))) := rfl

theorem exec_storeBlock (x : Reg) (s : State) :
    exec (.storeBlock x) s = .next (s.memWriteList s.dataBase (s.regsUpTo x)) := rfl

theorem exec_loadBlock (x : Reg) (s : State) : exec (.loadBlock x) s = .next (s.loadRegs x s.dataBase) := rfl

/-- Each digit of a byte is below 10, so it fits a byte (R127). -/
theorem bcdDigits_toNat (b : Byte) :
    (bcdDigits b).map BitVec.toNat = [b.toNat / 100, b.toNat / 10 % 10, b.toNat % 10] := by
  have := b.isLt
  simp only [bcdDigits, List.map_cons, List.map_nil, BitVec.toNat_ofNat, List.cons.injEq, and_true]
  omega

/-- The k-th digit reads back at I + k. -/
theorem State.memRead_bcdStore (s : State) (a : Nat) (b : Byte) (k : Nat) (hk : k < 3) :
    ((s.memWriteList a (bcdDigits b)).memRead (a + k)).toNat =
      [b.toNat / 100, b.toNat / 10 % 10, b.toNat % 10][k] := by
  rw [State.memRead_memWriteList_inside a (bcdDigits b) s k hk (show 3 ≤ 4096 by decide)]
  simp only [← bcdDigits_toNat, List.getElem_map]
  rfl

/-- Settles O50: the digits read back where they are stored, in the frame of a store of three bytes. -/
theorem bcdStoreWritesThreeDigits : Obligations.BcdStoreWritesThreeDigits := by
  intro x
  refine ⟨onlyWord_lowByte 0xF#4 x 0x33#8 (fun _ => rfl) rfl, fun s => ?_⟩
  have digit := s.memRead_bcdStore s.dataBase (s.readV x)
  exact ⟨_, exec_bcdStore x s, digit 0 (by decide), digit 1 (by decide), digit 2 (by decide),
    changesOnly_memWriteList s.dataBase (bcdDigits (s.readV x)) s⟩

/-- V0..Vx read back where store-block stores them. -/
theorem State.memRead_storeBlock (s : State) (x k : Reg) (a : Nat) (hk : k ≤ x) :
    (s.memWriteList a (s.regsUpTo x)).memRead (a + k.val) = s.readV k := by
  have hlen := s.regsUpTo_length x
  have inList : k.val < (s.regsUpTo x).length := by rw [hlen]; exact Nat.lt_succ_of_le hk
  rw [State.memRead_memWriteList_inside a _ s k.val inList (by simp only [memSize]; omega), State.regsUpTo_getElem]

/-- Settles O51: the registers read back where they are stored, in the frame of a store of x + 1 bytes. -/
theorem storeBlockWritesV0ToVx : Obligations.StoreBlockWritesV0ToVx := by
  intro x
  refine ⟨onlyWord_lowByte 0xF#4 x 0x55#8 (fun _ => rfl) rfl, fun s => ?_⟩
  refine ⟨_, exec_storeBlock x s, fun k hk => s.memRead_storeBlock x k s.dataBase hk, ?_⟩
  rw [← s.regsUpTo_length x]
  exact changesOnly_memWriteList s.dataBase (s.regsUpTo x) s

theorem changesOnly_loadRegs (s : State) (x : Reg) (a : Nat) :
    changesOnly (fun p => ∃ k ≤ x, p = .reg k) s (s.loadRegs x a) := by
  intro p hp
  cases p with
  | reg r =>
    have above : ¬ r ≤ x := fun hr => hp ⟨r, hr, rfl⟩
    exact (s.readV_loadRegs x r a).trans (if_neg above)
  | _ => simp [samePart]

/-- Settles O52: the registers up to x are the bytes at I, the others are kept. -/
theorem loadBlockReadsV0ToVx : Obligations.LoadBlockReadsV0ToVx := by
  intro x
  refine ⟨onlyWord_lowByte 0xF#4 x 0x65#8 (fun _ => rfl) rfl, fun s => ?_⟩
  exact ⟨_, exec_loadBlock x s, fun k hk => (s.readV_loadRegs x k _).trans (if_pos hk), changesOnly_loadRegs s x _⟩

/-- Settles O53: I is the same for both, so each register is loaded from the byte it was stored to. -/
theorem storeBlockThenLoadBlockIsIdentity : Obligations.StoreBlockThenLoadBlockIsIdentity := by
  intro x s t h
  obtain rfl := Host.Outcome.next.inj ((exec_storeBlock x s).symm.trans h)
  have sameI : (s.memWriteList s.dataBase (s.regsUpTo x)).dataBase = s.dataBase :=
    congrArg BitVec.toNat (State.memWriteList_i _ _ s)
  refine ⟨_, exec_loadBlock x _, fun k hk => ?_, fun k hk => ?_⟩
  · rw [State.readV_loadRegs, if_pos hk]
    refine Eq.trans ?_ (s.memRead_storeBlock x k s.dataBase hk)
    exact congrArg (fun a => (s.memWriteList s.dataBase (s.regsUpTo x)).memRead (a + k.val)) sameI
  · rw [State.readV_loadRegs, if_neg (not_le.mpr hk)]
    exact Vector.getElem_replicate k.isLt

/-- Settles O58: within memory load is a list store, shorter than the memory; past its end it is the error. -/
theorem loadWritesTheBytesOrFails : Obligations.LoadWritesTheBytesOrFails := by
  intro s bytes base
  refine ⟨fun fits => ?_, fun past => load_of_gt past⟩
  exact ⟨_, load_of_le fits, fun k hk => State.memRead_memWriteList_inside base bytes s k hk (by simp only [memSize]; omega),
    changesOnly_memWriteList base bytes s⟩

end Sys2Proof.Machine
end

section
/-! PROOFS. The draw: each cell is the old cell XOR its sprite bit, and VF tells whether a sprite bit met a lit cell. -/

namespace Sys2Proof.Machine

/-! ## What one draw does (R97) -/

/-- The statement's sprite bit is the bit the row and column loops draw: the rows they reach are those on the display,
and bit 7 − c counted from the right is bit c counted from the left. -/
theorem spriteBit_iff (s : State) (x y : Reg) (n : Nibble) (col row : Nat) :
    spriteBit s x y n col row ↔ col < 64 ∧
      ((s.readV y).toNat % displayH ≤ row ∧
        row < (s.readV y).toNat % displayH + rowsDrawn n.toNat ((s.readV y).toNat % displayH) ∧
        (s.readV x).toNat % displayW ≤ col ∧ col < (s.readV x).toNat % displayW + 8) ∧
      (s.memRead (s.dataBase + (row - (s.readV y).toNat % displayH))).getMsbD
        (col - (s.readV x).toNat % displayW) = true := by
  set cx := (s.readV x).toNat % displayW
  set cy := (s.readV y).toNat % displayH
  have hcy : cy < 32 := Nat.mod_lt _ (by decide)
  have hrows : cy ≤ row → (row < cy + rowsDrawn n.toNat cy ↔ row < 32 ∧ row < cy + n.toNat) := by
    intro h
    simp only [rowsDrawn, displayH]
    omega
  have hbit : col < cx + 8 → cx ≤ col → ∀ b : Byte, b.getMsbD (col - cx) = b.getLsbD (7 - (col - cx)) := by
    intro h h' b
    rw [BitVec.getMsbD, decide_eq_true (by omega), Bool.true_and]
  constructor
  · rintro ⟨hcol, hrow, hx, hx', hy, hy', hb⟩
    have hx8 : col < cx + 8 := Nat.lt_succ_of_le hx'
    exact ⟨hcol, ⟨hy, (hrows hy).mpr ⟨hrow, hy'⟩, hx, hx8⟩, (hbit hx8 hx _).trans hb⟩
  · rintro ⟨hcol, ⟨hy, hr, hx, hx8⟩, hb⟩
    obtain ⟨hrow, hy'⟩ := (hrows hy).mp hr
    exact ⟨hcol, hrow, hx, Nat.le_of_lt_succ hx8, hy, hy', (hbit hx8 hx _).symm.trans hb⟩

theorem xor_eq_true_iff_iff_not (a b : Bool) : (a ^^ b) = true ↔ (a = true ↔ ¬ b = true) := by
  cases a <;> cases b <;> decide

/-- A cell is lit after the draw when it was lit without a sprite bit, or unlit with one. -/
theorem State.drawnCanvas_cell (s : State) (x y : Reg) (n : Nibble) (col row : Nat) :
    (s.drawnCanvas x y n).1.cell col row = true ↔ (s.fb.cell col row = true ↔ ¬ spriteBit s x y n col row) := by
  by_cases hcol : col < 64
  · rw [State.drawnCanvas, drawSprite, (drawRows_spec _ _ _ _ _ _ le_rfl).1 col row hcol, spriteBit_iff]
    rw [xor_eq_true_iff_iff_not, Bool.and_eq_true, decide_eq_true_iff]
    simp only [hcol, true_and]
  · rw [FrameBuffer.cell_outside _ _ _ (fun h => hcol h.1), FrameBuffer.cell_outside _ _ _ (fun h => hcol h.1)]
    have noBit : ¬ spriteBit s x y n col row := fun h => hcol h.1
    simp [noBit]

/-- The flag is set exactly when a sprite bit falls on a cell that was lit before the draw. -/
theorem State.drawnCanvas_collision (s : State) (x y : Reg) (n : Nibble) :
    (s.drawnCanvas x y n).2 = true ↔ ∃ col row, spriteBit s x y n col row ∧ s.fb.cell col row = true := by
  rw [State.drawnCanvas, drawSprite, (drawRows_spec _ _ _ _ _ _ le_rfl).2]
  simp only [spriteBit_iff, Bool.false_eq_true, false_or, and_assoc]

theorem exec_draw (x y : Reg) (n : Nibble) (s : State) :
    exec (.draw x y n) s =
      .next ((s.writeFb (s.drawnCanvas x y n).1).writeV vF (flagByte (s.drawnCanvas x y n).2)) := rfl

theorem flagByte_eq_one_iff (c : Bool) : flagByte c = 1#8 ↔ c = true := by
  cases c <;> decide

/-- Settles O33: the cells and the flag of the drawn canvas, in the frame of the two writes. -/
theorem drawXorsTheClippedSprite : Obligations.DrawXorsTheClippedSprite := by
  intro x y n
  refine ⟨onlyWord_of_wellFormed (fun _ => rfl) (formatXYN_toNat 0xD#4 x y n), fun s => ?_⟩
  refine ⟨_, exec_draw x y n s, s.drawnCanvas_cell x y n, fun collides => ?_, fun clear => ?_,
    changesOnly_trans (changesOnly_writeFb s _) (changesOnly_writeV _ vF _)⟩
  · rw [State.readV_writeV_same, (s.drawnCanvas_collision x y n).mpr collides]; rfl
  · rw [State.readV_writeV_same, Bool.eq_false_iff.mpr fun h => clear ((s.drawnCanvas_collision x y n).mp h)]; rfl

/-! ## Drawing twice -/

/-- The sprite bits depend on the position registers, I and memory alone. -/
theorem spriteBit_congr {s t : State} {x y : Reg} (n : Nibble) (col row : Nat) (hx : t.readV x = s.readV x)
    (hy : t.readV y = s.readV y) (hi : t.i = s.i) (hmem : ∀ a, t.memRead a = s.memRead a) :
    spriteBit t x y n col row ↔ spriteBit s x y n col row := by
  simp only [spriteBit, hx, hy, hi, hmem]

/-- Toggled twice, a cell is as it was. -/
theorem iff_not_iff_not_iff (lit bit : Prop) : ((lit ↔ ¬ bit) ↔ ¬ bit) ↔ lit := by tauto

/-- A toggled cell is lit exactly when it was unlit. -/
theorem and_iff_not_iff (lit bit : Prop) : (bit ∧ (lit ↔ ¬ bit)) ↔ (bit ∧ ¬ lit) := by tauto

/-- Settles O34: the second draw has the same sprite bits, so each cell is toggled back; it collides at the bits the
first one lit. -/
theorem drawTwiceRestoresTheFrameBuffer : Obligations.DrawTwiceRestoresTheFrameBuffer := by
  intro x y n s t hx hy h
  have ht := (exec_draw x y n s).symm.trans h
  obtain rfl := Host.Outcome.next.inj ht
  set t := (s.writeFb (s.drawnCanvas x y n).1).writeV vF (flagByte (s.drawnCanvas x y n).2) with htdef
  have sameBits : ∀ col row, spriteBit t x y n col row ↔ spriteBit s x y n col row := fun col row =>
    spriteBit_congr n col row ((State.readV_writeV _ vF x _).trans (if_neg hx.symm))
      ((State.readV_writeV _ vF y _).trans (if_neg hy.symm)) rfl fun _ => rfl
  have firstCell : ∀ col row, t.fb.cell col row = true ↔ (s.fb.cell col row = true ↔ ¬ spriteBit s x y n col row) :=
    s.drawnCanvas_cell x y n
  refine ⟨_, exec_draw x y n t, FrameBuffer.ext_cell _ _ fun col row _ _ => ?_, ?_⟩
  · have secondCell := t.drawnCanvas_cell x y n col row
    rw [sameBits, firstCell, iff_not_iff_not_iff] at secondCell
    exact Bool.eq_iff_iff.mpr secondCell
  · rw [State.readV_writeV_same]
    refine (flagByte_eq_one_iff _).trans ((t.drawnCanvas_collision x y n).trans ?_)
    refine exists_congr fun col => exists_congr fun row => ?_
    rw [sameBits, firstCell, and_iff_not_iff, Bool.not_eq_true]

end Sys2Proof.Machine
end

section
/-! PROOFS. The order of flag write and operand read, random-and, the index and timer instructions, construct and
setKey. -/

namespace Sys2Proof.Machine

/-! ## The two settings of ALU_VF_ALIAS (R108) -/

section
variable (flag : Byte → Byte → Bool) (result : Byte → Byte → Byte) {x y : Reg} (s : State)

/-- Writing VF first cannot be seen by operands that are not VF. -/
theorem State.flaggedSequential_eq_flaggedLatched (hx : x ≠ vF) (hy : y ≠ vF) :
    s.flaggedSequential flag result x y = s.flaggedLatched flag result x y := by
  simp only [State.flaggedSequential, State.flaggedLatched, State.readV_writeV, if_neg hx.symm, if_neg hy.symm]

/-- Neither form reads the parameters, so under the two settings only the parameters differ. -/
theorem State.flagged_under_sequential (hx : x ≠ vF) (hy : y ≠ vF) :
    { s with cfg := { s.cfg with aluVfAlias := .sequential } }.flagged flag result x y =
      { { s with cfg := { s.cfg with aluVfAlias := .latched } }.flagged flag result x y with
        cfg := { s.cfg with aluVfAlias := .sequential } } := by
  rw [State.flagged_of_sequential _ _ _ _ _ rfl, State.flagged_of_latched _ _ _ _ _ rfl,
    State.flaggedSequential_eq_flaggedLatched _ _ _ hx hy]
  rfl

end

/-- Settles O46: add-reg is latched under both settings; the others are the flagged operation. -/
theorem aliasSettingsAgreeAwayFromVF : Obligations.AliasSettingsAgreeAwayFromVF := by
  intro x y i s hx hy hi
  simp only [List.mem_cons, List.not_mem_nil, or_false] at hi
  rcases hi with rfl | rfl | rfl | rfl | rfl
  · exact ⟨_, exec_addReg x y _, rfl⟩
  · exact ⟨_, exec_sub x y _, by rw [exec_sub, State.flagged_under_sequential _ _ s hx hy]⟩
  · exact ⟨_, exec_subn x y _, by rw [exec_subn, State.flagged_under_sequential _ _ s hx hy]⟩
  · exact ⟨_, exec_shiftRight x y _, by rw [exec_shiftRight, State.flagged_under_sequential _ _ s hx hx]⟩
  · exact ⟨_, exec_shiftLeft x y _, by rw [exec_shiftLeft, State.flagged_under_sequential _ _ s hx hx]⟩

/-! ## The random byte (R121, R122) -/

theorem exec_randomAnd (x : Reg) (nn : Byte) (s : State) :
    exec (.randomAnd x nn) s = .next (s.consumeRandom.writeV x (s.nextRandom &&& nn)) := rfl

theorem State.nextRandom_of_cons {s : State} {b : Byte} {rest : List Byte} (h : s.provider = b :: rest) :
    s.nextRandom = b := by
  simp only [State.nextRandom, h]

theorem State.nextRandom_of_nil {s : State} (h : s.provider = []) : s.nextRandom = Config.randByte s.drawn := by
  simp only [State.nextRandom, h]

theorem changesOnly_consumeRandom (s : State) :
    changesOnly (fun p => p = .provider ∨ p = .drawn) s s.consumeRandom := by
  intro p hp
  cases p with
  | provider => exact absurd (.inl rfl) hp
  | drawn => exact absurd (.inr rfl) hp
  | _ => simp [samePart]

/-- Settles O47: the draw is used up, then Vx is written. -/
theorem randomAndMasksAFreshByte : Obligations.RandomAndMasksAFreshByte := by
  intro x nn
  refine ⟨onlyWord_of_wellFormed (fun _ => rfl) (formatXNN_toNat 0xC#4 x nn), fun s => ?_⟩
  refine ⟨_, exec_randomAnd x nn s, fun b rest named => ?_, fun unnamed => ?_, fun p hp => ?_⟩
  · rw [State.readV_writeV_same, s.nextRandom_of_cons named]
    simp [named, State.consumeRandom_drawn]
  · rw [State.readV_writeV_same, s.nextRandom_of_nil unnamed]
    simp [unnamed, State.consumeRandom_drawn]
  · exact changesOnly_trans (changesOnly_consumeRandom s) (changesOnly_writeV _ x _) p fun h => hp h.symm

/-! ## The index register (R124 to R126) -/

theorem changesOnly_writeI (s : State) (a : Word) : changesOnly (fun p => p = .index) s (s.writeI a) := by
  intro p hp
  cases p with
  | index => exact absurd rfl hp
  | _ => simp [samePart]

theorem exec_loadIndex (nnn : Addr12) (s : State) : exec (.loadIndex nnn) s = .next (s.writeI (addrOf nnn)) := rfl

theorem exec_addIndex (x : Reg) (s : State) : exec (.addIndex x) s = .next (s.writeI (s.i + wideOf (s.readV x))) := rfl

/-- Settles O48: each is one write of I. -/
theorem indexInstructionsSetI : Obligations.IndexInstructionsSetI := by
  refine ⟨fun nnn => ⟨onlyWord_of_wellFormed (fun _ => rfl) (formatNNN_toNat 0xA#4 nnn), fun s => ?_⟩, fun x =>
    ⟨onlyWord_lowByte 0xF#4 x 0x1E#8 (fun _ => rfl) rfl, onlyWord_lowByte 0xF#4 x 0x29#8 (fun _ => rfl) rfl,
      fun s => ⟨?_, ?_⟩⟩⟩
  · exact ⟨_, exec_loadIndex nnn s, addrOf_toNat nnn, changesOnly_writeI s _⟩
  · refine ⟨_, exec_addIndex x s, ?_, changesOnly_writeI s _⟩
    rw [State.writeI_i, BitVec.toNat_add, wideOf_toNat]
  · refine ⟨_, exec_fontAddress x s, ?_, changesOnly_writeI s _⟩
    rw [State.writeI_i, glyphAddress_toNat, Nat.mul_comm]

/-! ## The timers (R131 to R133) -/

theorem changesOnly_writeDt (s : State) (b : Byte) : changesOnly (fun p => p = .delay) s (s.writeDt b) := by
  intro p hp
  cases p with
  | delay => exact absurd rfl hp
  | _ => simp [samePart]

theorem changesOnly_writeSt (s : State) (b : Byte) : changesOnly (fun p => p = .sound) s (s.writeSt b) := by
  intro p hp
  cases p with
  | sound => exact absurd rfl hp
  | _ => simp [samePart]

theorem exec_readDelay (x : Reg) (s : State) : exec (.readDelay x) s = .next (s.writeV x s.dt) := rfl

/-- The step of an instruction that leaves the core running ends with the tick. -/
theorem step_of_exec_running {s t : State} {i : Instr} (hs : s.status = .running)
    (hd : decode s.cfg.decode59 s.fetchWord = .ok i) (he : exec i s.advancePc = .next t) (ht : t.status = .running) :
    step s = .next t.tick := by
  rw [step_of_exec hs hd he, completeCycle_running t ht]

/-- Settles O54: one write of Vx, DT or ST, and after it the tick. -/
theorem timerInstructionsMoveVx : Obligations.TimerInstructionsMoveVx := by
  intro x
  have wordRead : onlyWord (.readDelay x) (0xF007 + 0x100 * x.val) := onlyWord_lowByte 0xF#4 x 0x07#8 (fun _ => rfl) rfl
  have wordDelay : onlyWord (.writeDelay x) (0xF015 + 0x100 * x.val) := onlyWord_lowByte 0xF#4 x 0x15#8 (fun _ => rfl) rfl
  have wordSound : onlyWord (.writeSound x) (0xF018 + 0x100 * x.val) := onlyWord_lowByte 0xF#4 x 0x18#8 (fun _ => rfl) rfl
  refine ⟨wordRead, wordDelay, wordSound, fun s => ⟨?_, ?_, ?_⟩, fun s hs => ⟨fun hw => ?_, fun hw => ?_, fun hw => ?_⟩⟩
  · exact ⟨_, exec_readDelay x s, s.readV_writeV_same x s.dt, changesOnly_writeV s x _⟩
  · exact ⟨_, exec_writeDelay x s, rfl, changesOnly_writeDt s _⟩
  · exact ⟨_, exec_writeSound x s, rfl, changesOnly_writeSt s _⟩
  · exact ⟨_, step_of_exec_running hs ((wordRead _ _).mpr hw) (exec_readDelay x s.advancePc) hs,
      s.advancePc.readV_writeV_same x s.dt, countDown_toNat s.dt⟩
  · exact ⟨_, step_of_exec_running hs ((wordDelay _ _).mpr hw) (exec_writeDelay x s.advancePc) hs,
      countDown_toNat (s.readV x)⟩
  · exact ⟨_, step_of_exec_running hs ((wordSound _ _).mpr hw) (exec_writeSound x s.advancePc) hs,
      countDown_toNat (s.readV x)⟩

/-! ## Construct and setKey (R44, R48) -/

/-- Outside the glyph table the construction contents are zero. -/
theorem resetByte_outside (g : GlyphTable) {a : Nat} (h : a < 0x50 ∨ 0xA0 ≤ a) : resetByte g a = 0#8 := by
  have outside : ¬ (glyphBase ≤ a ∧ a < glyphBase + 80) := by simp only [glyphBase]; omega
  rw [resetByte, dif_neg outside]

/-- Settles O57: memory reads as the construction contents, every other part has its reset value. -/
theorem constructGivesTheResetState : Obligations.ConstructGivesTheResetState := by
  rintro s _ rfl
  refine ⟨fun a ha => ?_, fun k hk => State.memRead_construct_glyph s.cfg k hk, fun r => ?_, rfl, rfl, rfl, rfl, rfl,
    fun col row => FrameBuffer.cell_unlit col row, fun k => ?_, rfl, rfl, rfl, rfl⟩
  · have inMemory : location a = a := Nat.mod_eq_of_lt (by simp only [memSize]; omega)
    refine (State.memRead_construct s.cfg a).trans ?_
    rw [inMemory]
    exact resetByte_outside _ (ha.imp_right And.left)
  · exact Vector.getElem_replicate r.isLt
  · exact Vector.getElem_replicate k.isLt

theorem State.readKey_setKey (s : State) (k j : Fin 16) (pressed : Bool) :
    { s with key := s.key.setIfInBounds k.val pressed }.readKey j = if k = j then pressed else s.readKey j := by
  simp only [State.readKey, Vector.getElem_setIfInBounds, Fin.ext_iff]

theorem changesOnly_setKey (s : State) (k : Fin 16) (pressed : Bool) :
    changesOnly (fun p => p = .key k) s { s with key := s.key.setIfInBounds k.val pressed } := by
  intro p hp
  cases p with
  | key j =>
    have other : k ≠ j := fun h => hp (h ▸ rfl)
    exact (s.readKey_setKey k j pressed).trans (if_neg other)
  | _ => rfl

/-- Settles O59: an index in range sets its key, any other is the error. -/
theorem setKeySetsOneKeyOrFails : Obligations.SetKeySetsOneKeyOrFails := by
  intro s pressed
  refine ⟨fun k => ?_, fun index h => setKey_of_not_mem (by omega)⟩
  exact ⟨_, setKey_of_mem (by omega), (s.readKey_setKey k k pressed).trans (if_pos rfl), changesOnly_setKey s k pressed⟩

end Sys2Proof.Machine
end
